-- ==== Sys2Proof/Word.lean ====
section
/-! DEFINITION. The word types of CORE: bytes, blocks, halves, round keys, and byte buffers.
Widths: spec 00_scope.md R6, 10_state.md R11 and R20. -/

namespace Sys2Proof

/-- One byte of a buffer (20_memory.md R25). -/
abbrev Byte := BitVec 8

/-- A block: BLOCK_BITS = 64 bits, byte 0 most significant (R6, R29). -/
abbrev Block := BitVec 64

/-- Half a block: HALF_BLOCK_BITS = 32 bits (R6). -/
abbrev Half := BitVec 32

/-- One round key: RK_BITS = 48 bits (R6). -/
abbrev RoundKey := BitVec 48

/-- Half of the permuted key: HALF_KEY_BITS = 28 bits (R6). -/
abbrev KeyHalf := BitVec 28

/-- A schedule: exactly sixteen round keys, index i is the spec's RK[i] (R11). -/
abbrev Schedule := Vector RoundKey 16

/-- A byte buffer as (offset, byte) pairs. An offset that is not listed holds no byte: it does not exist
in the buffer (20_memory.md R25 to R27). -/
abbrev Memory := List Host.Cell

end Sys2Proof
end

