-- ==== Sys2Proof/Syntax.lean ====
section
/-! DEFINITION. The commands of CORE (spec 30_encoding.md R41, R42), one constructor per row of
spec/opcode_table.json, the fields of the command word, the names of the illegal words (R43), and the
operands that the host presents beside the word (R44 to R46). -/

namespace Sys2Proof

/-- The Action of a command (00_scope.md R9). -/
inductive Action where
  | encrypt | decrypt
  deriving DecidableEq, Repr

/-- The Mode of a command (00_scope.md R9). -/
inductive Mode where
  | ecb | cbc
  deriving DecidableEq, Repr

/-- The four fields of a command word of format C8 (R41). -/
structure CmdFields where
  /-- CMD[7:5], must be 000 -/
  zero   : BitVec 3
  /-- CMD[4:2], the operation group -/
  op     : BitVec 3
  /-- CMD[1], 0 = ECB, 1 = CBC -/
  mode   : Mode
  /-- CMD[0], 0 = ENCRYPT, 1 = DECRYPT -/
  action : Action
  deriving DecidableEq, Repr

/-- Why a command word is illegal: the rows of R43. -/
inductive IllegalWord where
  /-- 0x01, 0x02, 0x03: KSCHED with M or A set -/
  | kschedBits
  /-- 0x06, 0x07: BLK with M = 1 -/
  | blkMode
  /-- 0x08, 0x09, 0x0B: CINIT with M = 0 or A = 1 -/
  | cinitBits
  /-- 0x14 to 0x1F: OP = 5, 6, 7 -/
  | reservedOp
  /-- 0x20 to 0xFF: ZERO ≠ 000 -/
  | reservedZero
  deriving DecidableEq, Repr

/-- The twelve commands (R42). No command has an operand field: every operand is a whole value presented
beside the word (R41), so the constructors take no argument. -/
inductive Instr where
  | ksched    -- KSCHED     0x00  R78
  | blkE      -- BLK.E      0x04  R84
  | blkD      -- BLK.D      0x05  R85
  | cbcInit   -- CBC.INIT   0x0A  R89
  | ecbE      -- ECB.E      0x0C  R90
  | ecbD      -- ECB.D      0x0D  R91
  | cbcE      -- CBC.E      0x0E  R92
  | cbcD      -- CBC.D      0x0F  R93
  | frmEEcb   -- FRM.E.ECB  0x10  R102
  | frmDEcb   -- FRM.D.ECB  0x11  R108
  | frmECbc   -- FRM.E.CBC  0x12  R103
  | frmDCbc   -- FRM.D.CBC  0x13  R109
  deriving DecidableEq, Repr

/-- Every operand the host can present with a command (R44 to R46). A command reads the ones its row names
and ignores the others. -/
structure Operands where
  /-- KEY64 (R44) -/
  key64  : Block
  /-- DIN (R45) -/
  din    : Block
  /-- IN (R26) -/
  inBuf  : Memory
  /-- IN_LEN, INLEN_BITS = 64 bits (R26) -/
  inLen  : BitVec 64
  /-- the draw rand32 (R22) -/
  rand32 : BitVec 32
  /-- the draws pad[0..6] (R22) -/
  pad    : Vector Byte 7
  deriving DecidableEq, Repr

end Sys2Proof
end

