-- ==== Sys2Proof/Decode.lean ====
section
/-! DEFINITION. The decoder of the command word, total on the 256 values (spec 30_encoding.md R41, R43), and
the encoder, written from the opcode map (R42). -/

namespace Sys2Proof

/-- Cut a command word into the fields of format C8 (R41). -/
def fieldsOf (cmd : Byte) : CmdFields :=
  { zero   := cmd.extractLsb' 5 3
    op     := cmd.extractLsb' 2 3
    mode   := if cmd.getLsbD 1 then .cbc else .ecb
    action := if cmd.getLsbD 0 then .decrypt else .encrypt }

/-- OP = 0, KSCHED: M and A must be 0 (R43). -/
def decodeKsched : Mode → Action → Except IllegalWord Instr
  | .ecb, .encrypt => .ok .ksched
  | .ecb, .decrypt => .error .kschedBits
  | .cbc, _ => .error .kschedBits

/-- OP = 1, BLK: M must be 0 (R43). -/
def decodeBlk : Mode → Action → Except IllegalWord Instr
  | .ecb, .encrypt => .ok .blkE
  | .ecb, .decrypt => .ok .blkD
  | .cbc, _ => .error .blkMode

/-- OP = 2, CINIT: M must be 1 and A must be 0 (R43). -/
def decodeCinit : Mode → Action → Except IllegalWord Instr
  | .cbc, .encrypt => .ok .cbcInit
  | .cbc, .decrypt => .error .cinitBits
  | .ecb, _ => .error .cinitBits

/-- OP = 3, MBLK (R42). -/
def decodeMblk : Mode → Action → Instr
  | .ecb, .encrypt => .ecbE
  | .ecb, .decrypt => .ecbD
  | .cbc, .encrypt => .cbcE
  | .cbc, .decrypt => .cbcD

/-- OP = 4, FRM (R42). -/
def decodeFrm : Mode → Action → Instr
  | .ecb, .encrypt => .frmEEcb
  | .ecb, .decrypt => .frmDEcb
  | .cbc, .encrypt => .frmECbc
  | .cbc, .decrypt => .frmDCbc

/-- The command that a word's fields name, or why they name none (R41, R43). -/
def decodeFields (f : CmdFields) : Except IllegalWord Instr :=
  if f.zero ≠ 0 then .error .reservedZero
  else match f.op.toNat with
    | 0 => decodeKsched f.mode f.action
    | 1 => decodeBlk f.mode f.action
    | 2 => decodeCinit f.mode f.action
    | 3 => .ok (decodeMblk f.mode f.action)
    | 4 => .ok (decodeFrm f.mode f.action)
    | _ => .error .reservedOp

/-- The decoder: any byte is one of the twelve commands or is illegal (R43). -/
def decode (cmd : Byte) : Except IllegalWord Instr := decodeFields (fieldsOf cmd)

/-- The opcode map (R42), and spec/opcode_table.json. -/
def encode : Instr → Byte
  | .ksched  => 0x00
  | .blkE    => 0x04
  | .blkD    => 0x05
  | .cbcInit => 0x0A
  | .ecbE    => 0x0C
  | .ecbD    => 0x0D
  | .cbcE    => 0x0E
  | .cbcD    => 0x0F
  | .frmEEcb => 0x10
  | .frmDEcb => 0x11
  | .frmECbc => 0x12
  | .frmDCbc => 0x13

/-- What the decoder reads from an instruction whose bits are w. A command is always 8 bits (R40, R48), so a
number that needs more bits than one byte is no command. -/
def decodeTableWord (_nbits w : Nat) : Option Instr :=
  if w < 256 then
    match decode (BitVec.ofNat 8 w) with
    | .ok i => some i
    | .error _ => none
  else none

end Sys2Proof
end

