-- ==== Sys2Proof/Machine/Bits.lean ====
section
/-! DEFINITION. The bit primitives of spec 40_bit_primitives.md (R55 to R63). Types carry the widths, which is
the width discipline of R55 and the masks of R86. -/

namespace Sys2Proof.Machine

/-- R56 in its FIPS reading, which R57 allows: the entries of the table name input bits 1 to W from the most
significant, and give the output bits from the most significant down. The input bit an entry t names is bit
W − t. -/
def permute {w : Nat} (n : Nat) (table : List Nat) (input : BitVec w) : BitVec n :=
  BitVec.ofNat n (table.foldl (fun acc t => 2 * acc + (input.getLsbD (w - t)).toNat) 0)

/-- R58: the high 28 bits and the low 28 bits. -/
def split56 (v : BitVec 56) : KeyHalf × KeyHalf := (v.extractLsb' 28 28, v.extractLsb' 0 28)

/-- R58: the inverse of split56. -/
def join56 (left right : KeyHalf) : BitVec 56 := left ++ right

/-- R59: the high 32 bits and the low 32 bits. -/
def split64 (v : Block) : Half × Half := (v.extractLsb' 32 32, v.extractLsb' 0 32)

/-- R59: the inverse of split64. -/
def join64 (left right : Half) : Block := left ++ right

/-- R60: left-rotate 28 bits by n (the schedule uses n = 1 and n = 2 only). -/
def rotL28 (half : KeyHalf) (n : Nat) : KeyHalf := (half <<< n) ||| (half >>> (28 - n))

/-- R61: reverse the byte order. No command uses it (20_memory.md R30). -/
def byteswap64 (v : Block) : Block :=
  (v.extractLsb' 0 8 ++ v.extractLsb' 8 8 ++ v.extractLsb' 16 8 ++ v.extractLsb' 24 8 ++
    v.extractLsb' 32 8 ++ v.extractLsb' 40 8 ++ v.extractLsb' 48 8 ++ v.extractLsb' 56 8 : BitVec 64)

/-- R62: field i of 48 bits, 1 ≤ i ≤ 8, field 1 the most significant. -/
def extract6 (value : RoundKey) (i : Nat) : BitVec 6 := value.extractLsb' (48 - 6 * i) 6

/-- R63: the row of a 6-bit field: bits 5 and 0. -/
def srow (b : BitVec 6) : Nat := 2 * (b.getLsbD 5).toNat + (b.getLsbD 0).toNat

/-- R63: the column of a 6-bit field: bits 4 to 1. -/
def scol (b : BitVec 6) : Nat := (b.extractLsb' 1 4).toNat

end Sys2Proof.Machine
end

