-- ==== Sys2Proof/Config.lean ====
section
/-! DEFINITION. The parameters of spec 00_scope.md R6 with their defaults, and the free values:
opaque constants with no body, so that nothing in Lean can evaluate one or prove a value of it. -/

namespace Sys2Proof.Config

/-- The values of kind "parameter" in R6, over which a claim may quantify (92_eei_decisions.md D11, D16). -/
structure Params where
  /-- IV: not a register and not an operand (R16) -/
  iv     : Block
  /-- MAXLEN, the size cap of every FRM command in bytes (R101). DEDUCED (log 9): it is a number that the header's
  length field can hold, LEN_FIELD_BITS = 32 -/
  maxLen : BitVec 32
  deriving DecidableEq, Repr

/-- The defaults of R6: IV = FB3C718924605AED, MAXLEN = 2^31 − 1. -/
def defaults : Params := { iv := 0xFB3C718924605AED, maxLen := 2147483647 }

/-- RK[0..15] after reset. DESIGN CHOICE (log 3): 10_state.md R23 gives them no value, "not zero, not IV";
the registers hold this value of which nothing is known. -/
opaque rkAtReset : Schedule

/-- PREV after reset. DESIGN CHOICE (log 3): 10_state.md R23 gives it no value. -/
opaque prevAtReset : Block

/-- rand32 on the operand port before the host has presented a command. DESIGN CHOICE (log 2): the draws are
under no law (R22). -/
opaque rand32AtReset : BitVec 32

/-- pad[0..6] on the operand port before the host has presented a command. DESIGN CHOICE (log 2). -/
opaque padAtReset : Vector Byte 7

end Sys2Proof.Config
end

