-- ==== Sys2Proof/WellFormed.lean ====
section
/-! DEFINITION. What the host must present. No constructor of Instr carries an operand, so every term of
Instr is well-formed; what can be ill-formed is a buffer. -/

namespace Sys2Proof

/-- A buffer's canonical form: offsets strictly rising. An unlisted offset reads as no byte, so no entry can
equal what an unlisted offset reads as. -/
abbrev Memory.wf (m : Memory) : Prop := (m.map Prod.fst).Pairwise (fun a b => a < b)

/-- The buffer holds exactly the bytes at offsets 0 to n − 1 (20_memory.md R26, R27). -/
abbrev Memory.dense (m : Memory) (n : Nat) : Prop := m.map Prod.fst = List.range n

/-- IN is canonical and holds exactly IN_LEN bytes. For an oversize IN_LEN the bytes need not be represented
(20_memory.md R26; 91_not_in_source.md N9). -/
abbrev Operands.wf (p : Config.Params) (o : Operands) : Prop :=
  Memory.wf o.inBuf ∧ (o.inLen.toNat ≤ p.maxLen.toNat → Memory.dense o.inBuf o.inLen.toNat)

end Sys2Proof
end

