-- ==== Sys2Proof/Machine/State.lean ====
section
/-! DEFINITION. The state of CORE (spec 10_state.md R10), the host's side of the transaction interface
(R21, 30_encoding.md R40 to R47), the fault causes (60_exceptions.md R113), and the state after reset (R23). -/

namespace Sys2Proof.Machine

/-- The six causes a command can raise, each with the info of 60_exceptions.md R113. Raising one is a NEXT
state, the fault entry of R116; it is not an outcome of its own. -/
inductive FaultCause where
  /-- code 1: the command word is not one of the twelve; info is CMD -/
  | illegalCommand (cmd : Byte)
  /-- code 5: IN_LEN > MAXLEN; info is IN_LEN -/
  | size (inLen : BitVec 64)
  /-- code 6: IN_LEN < 8 or IN_LEN − 8 not a multiple of 8; info is IN_LEN -/
  | alignment (inLen : BitVec 64)
  /-- code 7: the recovered length does not fit the payload; info is the recovered header -/
  | format (hdr : Block)
  /-- code 8: a command that reads RK while RKV = 0 -/
  | keyNotLoaded
  /-- code 9: CBC.E or CBC.D while PREVV = 0 -/
  | chainNotInitialised
  deriving DecidableEq, Repr

/-- What the host can do to CORE between commands: signal reset (70_reset_and_hazards.md R127), or present a
command word with its operands (30_encoding.md R40). -/
inductive HostEvent where
  | reset
  | command (cmd : Byte) (ops : Operands)
  deriving DecidableEq, Repr

/-- The machine. The first five fields are the whole architectural state (10_state.md R10); the last is the
configuration; the others are the transaction interface, which the spec calls inputs and outputs of a command (R21)
and the model holds because its step is a function of the state alone (log 1, 2). -/
structure State where
  /-- RK[0..15] (R11) -/
  rk     : Schedule
  /-- RKV: RK holds a schedule written by KSCHED (R12) -/
  rkv    : Bool
  /-- PREV, the CBC chaining register (R13) -/
  prev   : Block
  /-- PREVV: PREV has been written since reset (R14) -/
  prevv  : Bool
  /-- STATUS, whose one field is CODE (R15) -/
  status : BitVec 8
  /-- what the host will do, the next event first (R37 point 1, R138) -/
  host   : List HostEvent
  /-- the operands presented with the command (R44 to R46) -/
  ops    : Operands
  /-- DOUT of the last command, none where it produced none (R47) -/
  dout   : Option Block
  /-- OUT (R27) -/
  out    : Memory
  /-- OUT_LEN (R27) -/
  outLen : Nat
  /-- the cause with its info that the last command raised, from which the host prints its diagnostic line
  (R113, R125); no register holds it -/
  info   : Option FaultCause
  /-- the parameters of 00_scope.md R6, which no command, no step and no reset changes. They are no state of CORE but
  parameters of the step (R21); they stand here because the step takes no other argument (log 9) -/
  params : Config.Params
  deriving DecidableEq, Repr

/-- How the machine can stop. -/
inductive Fault where
  /-- FAULTED: every command, and the absence of one, in a state with STATUS ≠ 0. Raised by every meaning
  and by the step through Machine.whenRunning. SAFE: 60_exceptions.md R117 says that for a model such a step is
  a fault outcome (or no step at all). -/
  | faulted (code : BitVec 8)
  deriving DecidableEq, Repr

/-- Where the model has no execution. -/
inductive Refusal where
  /-- An instruction without a meaning; raised by exec's refused arms only (there is none left). SAFE. -/
  | notModelled (mnemonic : String)
  /-- MemRead outside its precondition: IN does not hold every byte below IN_LEN. Raised by the four FRM meanings on operands that are not well-formed (Operands.wf). SAFE: 20_memory.md R31
  allows it ("a model may make MemRead out of range a refusal"), log 5. -/
  | inReadOutOfRange (inLen : Nat)
  deriving DecidableEq, Repr

/-- An outcome of one command. -/
abbrev Result := Host.Outcome State Fault Refusal

/-- The operand port before the host has presented anything (log 2). -/
def Operands.idle : Operands :=
  { key64 := 0, din := 0, inBuf := [], inLen := 0, rand32 := Config.rand32AtReset, pad := Config.padAtReset }

/-- The machine right after reset (10_state.md R23, 70_reset_and_hazards.md R127): RKV = 0, PREVV = 0,
STATUS = 0; RK and PREV hold values of which nothing is known (log 3); the host has issued nothing; the parameters are the
defaults of 00_scope.md R6. -/
def State.reset : State :=
  { rk := Config.rkAtReset, rkv := false, prev := Config.prevAtReset, prevv := false, status := 0,
    host := [], ops := Operands.idle, dout := none, out := [], outLen := 0, info := none,
    params := Config.defaults }

end Sys2Proof.Machine
end

