-- ==== Sys2Proof/Machine/Ops.lean ====
section
/-! DEFINITION. The named operations over buffers and registers: MemRead and MemWrite (spec 20_memory.md R29,
R31, R32), the register writes (10_state.md R12 to R14), taking a fault (60_exceptions.md R113, R116), the
FAULTED state (R117), and reset, the only way out of it (R127). -/

namespace Sys2Proof.Machine

/-! ## Buffers -/

/-- The byte at an offset, none where the buffer has none. -/
def byteAt : Memory → Nat → Option Byte
  | [], _ => none
  | (x, b) :: m, a => if a = x then some b else byteAt m a

/-- Write one byte, keeping the offsets strictly rising. -/
def storeByte : Memory → Nat → Byte → Memory
  | [], a, v => [(a, v)]
  | (x, b) :: m, a, v =>
    if a < x then (a, v) :: (x, b) :: m
    else if a = x then (a, v) :: m
    else (x, b) :: storeByte m a v

/-- The n bytes from offset a up, none where one of them does not exist. -/
def readBytes (m : Memory) (a : Nat) : Nat → Option (List Byte)
  | 0 => some []
  | n + 1 =>
    match byteAt m a with
    | none => none
    | some b => (readBytes m (a + 1) n).map (fun bs => b :: bs)

/-- Write bytes at rising offsets from a. -/
def writeBytes (m : Memory) (a : Nat) : List Byte → Memory
  | [] => m
  | b :: bs => writeBytes (storeByte m a b) (a + 1) bs

/-- Bytes as one unsigned number, the first most significant; be64 for eight bytes (R29). -/
def beValue (bs : List Byte) : Block := BitVec.ofNat 64 (bs.foldl (fun acc b => 256 * acc + b.toNat) 0)

/-- The low n bytes of a value, most significant first: byte i is v[8(n−i)−1 : 8(n−1−i)] (R32). -/
def beBytes (n : Nat) (v : Block) : List Byte :=
  (List.range n).map (fun i => v.extractLsb' (8 * (n - 1 - i)) 8)

/-- MemRead(a, n), n ≤ 8, widened with zeros to 64 bits (R31). -/
def memRead (m : Memory) (a n : Nat) : Option Block := (readBytes m a n).map beValue

/-- MemWrite(a, n, v), n ≤ 8 (R32). -/
def memWrite (m : Memory) (a n : Nat) (v : Block) : Memory := writeBytes m a (beBytes n v)

/-! ## Registers and results -/

/-- RK[0..15] <- rk, RKV <- 1 (R11, R12). -/
def writeSchedule (s : State) (rk : Schedule) : State := { s with rk := rk, rkv := true }

/-- PREV <- v, PREVV <- 1 (R13, R14: every write of PREV sets PREVV). -/
def writePrev (s : State) (v : Block) : State := { s with prev := v, prevv := true }

/-- A command completes with DOUT, or with no DOUT, and without a fault (30_encoding.md R47). OUT is left as it
is (log 6). -/
def complete (s : State) (dout : Option Block) : State := { s with dout := dout, info := none }

/-- An FRM command completes: OUT and OUT_LEN are its results, DOUT is none (R27, R47). -/
def completeFrame (s : State) (out : Memory) (outLen : Nat) : State :=
  { s with dout := none, out := out, outLen := outLen, info := none }

/-! ## Faults -/

/-- The code of a cause (R113; 92_eei_decisions.md D5). -/
def faultCode : FaultCause → BitVec 8
  | .illegalCommand _ => 1
  | .size _ => 5
  | .alignment _ => 6
  | .format _ => 7
  | .keyNotLoaded => 8
  | .chainNotInitialised => 9

/-- raise X(info) (R116): no register write but STATUS <- code(X), no DOUT, OUT empty, OUT_LEN = 0; the info
goes to the host (R113). CORE is then FAULTED. -/
def enterFault (s : State) (x : FaultCause) : State :=
  { s with status := faultCode x, dout := none, out := [], outLen := 0, info := some x }

/-- A command that raises a fault has a next state: the fault entry. -/
def raise (s : State) (x : FaultCause) : Result := .next (enterFault s x)

/-- Test 1 of R115: with STATUS ≠ 0 the command is refused and changes nothing; for a model that is a fault
outcome (R117). -/
@[inline] def whenRunning (s : State) (k : Result) : Result :=
  if s.status = 0 then k else .fault (.faulted s.status)

/-- The decoder's fault: a word that is none of the twelve commands (R43, R115 test 2). -/
def rejectWord (cmd : Byte) (s : State) : Result := whenRunning s (raise s (.illegalCommand cmd))

/-- Reset (R127): the state of R23; what the host will still do and the parameters, which are constants (R6), are
left. -/
def hostReset (params : Config.Params) (rest : List HostEvent) : State :=
  { State.reset with params := params, host := rest }

/-- The host issues nothing: "between commands CORE holds its registers and does nothing" (R126), log 7. -/
def idle (s : State) : Result := whenRunning s (.next s)

end Sys2Proof.Machine
end

