-- ==== Sys2Proof/Machine/Operands.lean ====
section
/-! DEFINITION. The operand forms of the commands (spec 30_encoding.md R44 to R46): whole values presented
beside the command word. -/

namespace Sys2Proof.Machine

/-- KEY64 (R44): every value is legal. -/
def opKey64 (s : State) : Block := s.ops.key64

/-- DIN (R45): every value is legal. -/
def opDin (s : State) : Block := s.ops.din

/-- IN_LEN as a number (R26, R64). -/
def opInLen (s : State) : Nat := s.ops.inLen.toNat

/-- MemRead of IN (R31). -/
def opMemRead (s : State) (a n : Nat) : Option Block := memRead s.ops.inBuf a n

/-- The n bytes of IN from offset a. -/
def opBytes (s : State) (a n : Nat) : Option (List Byte) := readBytes s.ops.inBuf a n

/-- The draw rand32 (R22, R46). -/
def opRand32 (s : State) : BitVec 32 := s.ops.rand32

/-- The first r of the draws pad[0..6] (R22, R46). -/
def opPad (s : State) (r : Nat) : List Byte := s.ops.pad.toList.take r

end Sys2Proof.Machine
end

