-- ==== Sys2Proof/Machine/Flags.lean ====
section
/-! DEFINITION. The tests that a command applies before it runs, in the order of spec 60_exceptions.md R115.
RKV, PREVV and STATUS are the only flags (10_state.md R19); no command sets a condition code. -/

namespace Sys2Proof.Machine

/-- Test 3 of R115: a command that reads RK needs RKV = 1 (10_state.md R12). -/
@[inline] def withKey (s : State) (k : Result) : Result :=
  if s.rkv = true then k else raise s .keyNotLoaded

/-- Test 4 of R115: CBC.E and CBC.D need PREVV = 1 (10_state.md R14). -/
@[inline] def withChain (s : State) (k : Result) : Result :=
  if s.prevv = true then k else raise s .chainNotInitialised

/-- Test 5 of R115: IN_LEN ≤ MAXLEN (45_framing_codec.md R101). -/
@[inline] def withSize (s : State) (k : Result) : Result :=
  if opInLen s > s.params.maxLen.toNat then raise s (.size s.ops.inLen) else k

/-- Test 6 of R115: IN_LEN = 8 · (n + 1) (45_framing_codec.md R104). -/
@[inline] def withAlignment (s : State) (k : Result) : Result :=
  if opInLen s < 8 ∨ (opInLen s - 8) % 8 ≠ 0 then raise s (.alignment s.ops.inLen) else k

/-- Test 7 of R115: Lh ≤ payload and payload − Lh < 8 (45_framing_codec.md R106). -/
@[inline] def withFormat (s : State) (hdr : Block) (lh payload : Nat) (k : Result) : Result :=
  if lh > payload then raise s (.format hdr)
  else if payload - lh ≥ 8 then raise s (.format hdr)
  else k

end Sys2Proof.Machine
end

