-- ==== Sys2Proof/Machine/Tables.lean ====
section
/-! DEFINITION. The fixed tables of spec 41_tables.md (R66 to R73), in the order the spec lists them (R65).
They are ROM: the same in every unit, written by nothing (20_memory.md R28). At the end, the structural checks of R74
that a model can run on its copy. -/

namespace Sys2Proof.Machine

/-- PC-1, 64 to 56 (R66). -/
def tablePC1 : List Nat :=
  [
    57, 49, 41, 33, 25, 17,  9,  1, 58, 50, 42, 34, 26, 18,
    10,  2, 59, 51, 43, 35, 27, 19, 11,  3, 60, 52, 44, 36,
    63, 55, 47, 39, 31, 23, 15,  7, 62, 54, 46, 38, 30, 22,
    14,  6, 61, 53, 45, 37, 29, 21, 13,  5, 28, 20, 12,  4 ]

/-- PC-2, 56 to 48 (R67). -/
def tablePC2 : List Nat :=
  [
    14, 17, 11, 24,  1,  5,  3, 28, 15,  6, 21, 10,
    23, 19, 12,  4, 26,  8, 16,  7, 27, 20, 13,  2,
    41, 52, 31, 37, 47, 55, 30, 40, 51, 45, 33, 48,
    44, 49, 39, 56, 34, 53, 46, 42, 50, 36, 29, 32 ]

/-- The rotation schedule (R68). -/
def tableROT : List Nat :=
  [
     1,  1,  2,  2,  2,  2,  2,  2,  1,  2,  2,  2,  2,  2,  2,  1 ]

/-- IP, 64 to 64 (R69). -/
def tableIP : List Nat :=
  [
    58, 50, 42, 34, 26, 18, 10,  2, 60, 52, 44, 36, 28, 20, 12,  4,
    62, 54, 46, 38, 30, 22, 14,  6, 64, 56, 48, 40, 32, 24, 16,  8,
    57, 49, 41, 33, 25, 17,  9,  1, 59, 51, 43, 35, 27, 19, 11,  3,
    61, 53, 45, 37, 29, 21, 13,  5, 63, 55, 47, 39, 31, 23, 15,  7 ]

/-- IP⁻¹, 64 to 64 (R70). -/
def tableFP : List Nat :=
  [
    40,  8, 48, 16, 56, 24, 64, 32, 39,  7, 47, 15, 55, 23, 63, 31,
    38,  6, 46, 14, 54, 22, 62, 30, 37,  5, 45, 13, 53, 21, 61, 29,
    36,  4, 44, 12, 52, 20, 60, 28, 35,  3, 43, 11, 51, 19, 59, 27,
    34,  2, 42, 10, 50, 18, 58, 26, 33,  1, 41,  9, 49, 17, 57, 25 ]

/-- E, 32 to 48 (R71). -/
def tableE : List Nat :=
  [
    32,  1,  2,  3,  4,  5,  4,  5,  6,  7,  8,  9,
     8,  9, 10, 11, 12, 13, 12, 13, 14, 15, 16, 17,
    16, 17, 18, 19, 20, 21, 20, 21, 22, 23, 24, 25,
    24, 25, 26, 27, 28, 29, 28, 29, 30, 31, 32,  1 ]

/-- P, 32 to 32 (R72). -/
def tableP : List Nat :=
  [
    16,  7, 20, 21, 29, 12, 28, 17,  1, 15, 23, 26,  5, 18, 31, 10,
     2,  8, 24, 14, 32, 27,  3,  9, 19, 13, 30,  6, 22, 11,  4, 25 ]

/-- S1: four rows of sixteen columns (R73). -/
def tableS1 : List Nat :=
  [
    14,  4, 13,  1,  2, 15, 11,  8,  3, 10,  6, 12,  5,  9,  0,  7,
     0, 15,  7,  4, 14,  2, 13,  1, 10,  6, 12, 11,  9,  5,  3,  8,
     4,  1, 14,  8, 13,  6,  2, 11, 15, 12,  9,  7,  3, 10,  5,  0,
    15, 12,  8,  2,  4,  9,  1,  7,  5, 11,  3, 14, 10,  0,  6, 13 ]

/-- S2: four rows of sixteen columns (R73). -/
def tableS2 : List Nat :=
  [
    15,  1,  8, 14,  6, 11,  3,  4,  9,  7,  2, 13, 12,  0,  5, 10,
     3, 13,  4,  7, 15,  2,  8, 14, 12,  0,  1, 10,  6,  9, 11,  5,
     0, 14,  7, 11, 10,  4, 13,  1,  5,  8, 12,  6,  9,  3,  2, 15,
    13,  8, 10,  1,  3, 15,  4,  2, 11,  6,  7, 12,  0,  5, 14,  9 ]

/-- S3: four rows of sixteen columns (R73). -/
def tableS3 : List Nat :=
  [
    10,  0,  9, 14,  6,  3, 15,  5,  1, 13, 12,  7, 11,  4,  2,  8,
    13,  7,  0,  9,  3,  4,  6, 10,  2,  8,  5, 14, 12, 11, 15,  1,
    13,  6,  4,  9,  8, 15,  3,  0, 11,  1,  2, 12,  5, 10, 14,  7,
     1, 10, 13,  0,  6,  9,  8,  7,  4, 15, 14,  3, 11,  5,  2, 12 ]

/-- S4: four rows of sixteen columns (R73). -/
def tableS4 : List Nat :=
  [
     7, 13, 14,  3,  0,  6,  9, 10,  1,  2,  8,  5, 11, 12,  4, 15,
    13,  8, 11,  5,  6, 15,  0,  3,  4,  7,  2, 12,  1, 10, 14,  9,
    10,  6,  9,  0, 12, 11,  7, 13, 15,  1,  3, 14,  5,  2,  8,  4,
     3, 15,  0,  6, 10,  1, 13,  8,  9,  4,  5, 11, 12,  7,  2, 14 ]

/-- S5: four rows of sixteen columns (R73). -/
def tableS5 : List Nat :=
  [
     2, 12,  4,  1,  7, 10, 11,  6,  8,  5,  3, 15, 13,  0, 14,  9,
    14, 11,  2, 12,  4,  7, 13,  1,  5,  0, 15, 10,  3,  9,  8,  6,
     4,  2,  1, 11, 10, 13,  7,  8, 15,  9, 12,  5,  6,  3,  0, 14,
    11,  8, 12,  7,  1, 14,  2, 13,  6, 15,  0,  9, 10,  4,  5,  3 ]

/-- S6: four rows of sixteen columns (R73). -/
def tableS6 : List Nat :=
  [
    12,  1, 10, 15,  9,  2,  6,  8,  0, 13,  3,  4, 14,  7,  5, 11,
    10, 15,  4,  2,  7, 12,  9,  5,  6,  1, 13, 14,  0, 11,  3,  8,
     9, 14, 15,  5,  2,  8, 12,  3,  7,  0,  4, 10,  1, 13, 11,  6,
     4,  3,  2, 12,  9,  5, 15, 10, 11, 14,  1,  7,  6,  0,  8, 13 ]

/-- S7: four rows of sixteen columns (R73). -/
def tableS7 : List Nat :=
  [
     4, 11,  2, 14, 15,  0,  8, 13,  3, 12,  9,  7,  5, 10,  6,  1,
    13,  0, 11,  7,  4,  9,  1, 10, 14,  3,  5, 12,  2, 15,  8,  6,
     1,  4, 11, 13, 12,  3,  7, 14, 10, 15,  6,  8,  0,  5,  9,  2,
     6, 11, 13,  8,  1,  4, 10,  7,  9,  5,  0, 15, 14,  2,  3, 12 ]

/-- S8: four rows of sixteen columns (R73). -/
def tableS8 : List Nat :=
  [
    13,  2,  8,  4,  6, 15, 11,  1, 10,  9,  3, 14,  5,  0, 12,  7,
     1, 15, 13,  8, 10,  3,  7,  4, 12,  5,  6, 11,  0, 14,  9,  2,
     7, 11,  4,  1,  9, 12, 14,  2,  0,  6, 10, 13, 15,  3,  5,  8,
     2,  1, 14,  7,  4, 10,  8, 13, 15, 12,  9,  0,  3,  5,  6, 11 ]

/-- The S-box n, 1 ≤ n ≤ 8 (R73). -/
def tableS : Nat → List Nat
  | 1 => tableS1
  | 2 => tableS2
  | 3 => tableS3
  | 4 => tableS4
  | 5 => tableS5
  | 6 => tableS6
  | 7 => tableS7
  | 8 => tableS8
  | _ => []

/-- S[n][row][col], a 4-bit value (R73). -/
def sEntry (n row col : Nat) : BitVec 4 := BitVec.ofNat 4 ((tableS n).getD (16 * row + col) 0)

/-! ## The structural checks, one per row of R74 -/

/-- Every number of 1..n stands in t once where p holds of it and not at all where it does not, and t holds nothing
else. -/
def holdsOnce (p : Nat → Bool) (n : Nat) (t : List Nat) : Bool :=
  (List.range n).all (fun k => t.count (k + 1) == (if p (k + 1) then 1 else 0)) &&
    t.all (fun x => decide (1 ≤ x ∧ x ≤ n))

/-- t is a permutation of 1..n. -/
def isPermutation (n : Nat) (t : List Nat) : Bool := holdsOnce (fun _ => true) n t

/-- The lengths of PC1, PC2, ROT, IP, FP, E, P. -/
def checkLengths : Bool :=
  [tablePC1, tablePC2, tableROT, tableIP, tableFP, tableE, tableP].map List.length == [56, 48, 16, 64, 64, 48, 32]

/-- The sums of all entries of PC1, PC2, IP, FP, E, P (as corrected by 90_conflicts.md C12). -/
def checkSums : Bool :=
  [tablePC1, tablePC2, tableIP, tableFP, tableE, tableP].map List.sum == [1792, 1352, 2080, 2080, 792, 528]

/-- PC1 holds the indices of 1..64 that are no multiples of 8, each once. -/
def checkPC1 : Bool := holdsOnce (fun k => k % 8 != 0) 64 tablePC1

/-- PC2 holds the indices of 1..56 but eight, each once. -/
def checkPC2 : Bool := holdsOnce (fun k => !([9, 18, 22, 25, 35, 38, 43, 54].contains k)) 56 tablePC2

/-- IP, FP and P are permutations. -/
def checkPermutations : Bool := isPermutation 64 tableIP && isPermutation 64 tableFP && isPermutation 32 tableP

/-- FP[IP[q−1] − 1] = q for all q in 1..64. -/
def checkInverse : Bool :=
  (List.range 64).all (fun k => tableFP.getD (tableIP.getD k 0 - 1) 0 == k + 1)

/-- E[6g + h] = ((4g + h − 1) mod 32) + 1, the mod taken non-negative. -/
def checkE : Bool :=
  (List.range 8).all (fun g => (List.range 6).all (fun h =>
    (tableE.getD (6 * g + h) 0 : Int) == ((4 * g + h : Int) - 1) % 32 + 1))

/-- The sum of ROT. -/
def checkROT : Bool := tableROT.sum == 28

/-- Each row of each S-box is a permutation of 0..15. -/
def checkSRows : Bool :=
  (List.range 8).all (fun n => (List.range 4).all (fun row =>
    isPermutation 16 ((((tableS (n + 1)).drop (16 * row)).take 16).map (fun v => v + 1))))

/-- The sum of all 64 entries of each S-box. -/
def checkSSums : Bool := (List.range 8).all (fun n => (tableS (n + 1)).length == 64 && (tableS (n + 1)).sum == 480)

/-- R74: all its structural checks on this model's copy of the tables. -/
def structuralChecks : Bool :=
  checkLengths && checkSums && checkPC1 && checkPC2 && checkPermutations && checkInverse && checkE && checkROT &&
    checkSRows && checkSSums

end Sys2Proof.Machine
end

