-- ==== Sys2Proof/Machine/KeySchedule.lean ====
section
/-! DEFINITION. The component des_key_schedule (spec 42_key_schedule.md R75 to R78). -/

namespace Sys2Proof.Machine

/-- The loop of R77 from the halves C and D: for each rotation amount, rotate both halves, then take
PC-2 of the two joined. -/
def roundKeysFrom (c d : KeyHalf) : List Nat → List RoundKey
  | [] => []
  | n :: ns =>
    permute 48 tablePC2 (join56 (rotL28 c n) (rotL28 d n)) :: roundKeysFrom (rotL28 c n) (rotL28 d n) ns

theorem roundKeysFrom_length (c d : KeyHalf) (ns : List Nat) :
    (roundKeysFrom c d ns).length = ns.length := by
  induction ns generalizing c d with
  | nil => rfl
  | cons n ns ih => simp [roundKeysFrom, ih]

/-- R76: the halves C0 and D0 that PC-1 selects from the key. -/
def keyHalves (key : Block) : KeyHalf × KeyHalf := split56 (permute 56 tablePC1 key)

/-- KS(K), the sixteen round keys (R77). -/
def keySchedule (key : Block) : Schedule :=
  ⟨⟨roundKeysFrom (keyHalves key).1 (keyHalves key).2 tableROT⟩, roundKeysFrom_length _ _ _⟩

/-- KSCHED (R78): RK <- KS(KEY64), RKV <- 1. It raises nothing of its own. -/
def execKsched (s : State) : Result :=
  whenRunning s (.next (complete (writeSchedule s (keySchedule (opKey64 s))) none))

end Sys2Proof.Machine
end

