-- ==== Sys2Proof/Machine/BlockTransform.lean ====
section
/-! DEFINITION. The component des_block_cipher (spec 43_block_transform.md R80 to R86). -/

namespace Sys2Proof.Machine

/-- The 4-bit output of box i on field i of v (R81). -/
def sboxNibble (v : RoundKey) (i : Nat) : BitVec 4 :=
  sEntry i (srow (extract6 v i)) (scol (extract6 v i))

/-- SBOX(v) (R81): the eight outputs, S1 most significant. -/
def sbox (v : RoundKey) : Half :=
  (sboxNibble v 1 ++ sboxNibble v 2 ++ sboxNibble v 3 ++ sboxNibble v 4 ++
    sboxNibble v 5 ++ sboxNibble v 6 ++ sboxNibble v 7 ++ sboxNibble v 8 : BitVec 32)

/-- F(R, k) = P(S(E(R) XOR k)) (R82). -/
def roundF (r : Half) (k : RoundKey) : Half :=
  permute 32 tableP (sbox (permute 48 tableE r ^^^ k))

/-- One Feistel round: (L, R) := (R, L ^ F(R, k)), both at once (R83 step 3). -/
def feistelRound (lr : Half × Half) (k : RoundKey) : Half × Half := (lr.2, lr.1 ^^^ roundF lr.2 k)

/-- The round keys in the order the action uses them: RK[i] in round i, or RK[15 − i] (R83). -/
def keyOrder (rk : Schedule) : Action → List RoundKey
  | .encrypt => rk.toList
  | .decrypt => rk.toList.reverse

/-- Transform(B, rk, action) (R83): IP, sixteen rounds, the swap, IP⁻¹. -/
def transform (b : Block) (rk : Schedule) (action : Action) : Block :=
  let lr := (keyOrder rk action).foldl feistelRound (split64 (permute 64 tableIP b))
  permute 64 tableFP (join64 lr.2 lr.1)

/-- A command that needs the key only and whose one effect is DOUT. -/
def blockCommand (s : State) (f : Schedule → Block → Block) : Result :=
  whenRunning s (withKey s (.next (complete s (some (f s.rk (opDin s))))))

/-- The raw block transform, which has no mode (30_encoding.md R43). -/
def rawStep (action : Action) (rk : Schedule) (b : Block) : Block := transform b rk action

/-- BLK.E (R84). -/
def execBlkE (s : State) : Result := blockCommand s (rawStep .encrypt)

/-- BLK.D (R85). -/
def execBlkD (s : State) : Result := blockCommand s (rawStep .decrypt)

end Sys2Proof.Machine
end

