-- ==== Sys2Proof/Machine/ModeEngines.lean ====
section
/-! DEFINITION. The components ecb_mode_engine and cbc_mode_engine (spec 44_mode_engines.md R88 to R94). -/

namespace Sys2Proof.Machine

/-- ECB on one block: no chaining state (R88, R90, R91). -/
def ecbStep (action : Action) (rk : Schedule) (b : Block) : Block := transform b rk action

/-- CBC on one block: the output block and the next chaining value. Encrypting, c := Transform(b ^ prev) and
prev := c (R92); decrypting, m := Transform(c) ^ prev and prev := c, the ciphertext (R93, 90_conflicts.md C5). -/
def cbcStep : Action → Schedule → Block → Block → Block × Block
  | .encrypt, rk, prev, b => (transform (b ^^^ prev) rk .encrypt, transform (b ^^^ prev) rk .encrypt)
  | .decrypt, rk, prev, c => (transform c rk .decrypt ^^^ prev, c)

/-- One block under a mode: the output block and the next chaining value, which ECB leaves alone. -/
def engineStep (mode : Mode) (action : Action) (rk : Schedule) (prev b : Block) : Block × Block :=
  match mode with
  | .ecb => (ecbStep action rk b, prev)
  | .cbc => cbcStep action rk prev b

/-- Blocks in stream order under a mode (R94, R95): the output blocks and the last chaining value. -/
def runEngine (mode : Mode) (action : Action) (rk : Schedule) : Block → List Block → List Block × Block
  | prev, [] => ([], prev)
  | prev, b :: bs =>
    ((engineStep mode action rk prev b).1 :: (runEngine mode action rk (engineStep mode action rk prev b).2 bs).1,
      (runEngine mode action rk (engineStep mode action rk prev b).2 bs).2)

/-- PREV after an FRM command: CBC commits the last chaining value, ECB leaves PREV and PREVV alone
(45_framing_codec.md R102, R103, R108, R109; 92_eei_decisions.md D13). -/
def commitChain (mode : Mode) (s : State) (prev : Block) : State :=
  match mode with
  | .ecb => s
  | .cbc => writePrev s prev

/-- CBC.INIT (R89): PREV <- IV, PREVV <- 1. It needs no key. -/
def execCbcInit (s : State) : Result := whenRunning s (.next (complete (writePrev s s.params.iv) none))

/-- ECB.E (R90). -/
def execEcbE (s : State) : Result := blockCommand s (ecbStep .encrypt)

/-- ECB.D (R91). -/
def execEcbD (s : State) : Result := blockCommand s (ecbStep .decrypt)

/-- A CBC command on one block: KeyNotLoaded, then ChainNotInitialised, then the step (R92, R93). -/
def chainCommand (s : State) (action : Action) : Result :=
  whenRunning s (withKey s (withChain s
    (.next (complete (writePrev s (cbcStep action s.rk s.prev (opDin s)).2)
      (some (cbcStep action s.rk s.prev (opDin s)).1)))))

/-- CBC.E (R92). -/
def execCbcE (s : State) : Result := chainCommand s .encrypt

/-- CBC.D (R93). -/
def execCbcD (s : State) : Result := chainCommand s .decrypt

end Sys2Proof.Machine
end

