-- ==== Sys2Proof/Machine/Framing.lean ====
section
/-! DEFINITION. The component des_framing_codec (spec 45_framing_codec.md R97 to R109). -/

namespace Sys2Proof.Machine

/-- The cleartext header block: rand32 in the high half, N in the low half (R98, 30_encoding.md R49). -/
def headerBlock (rand32 : BitVec 32) (n : Nat) : Block := rand32 ++ BitVec.ofNat 32 n

/-- The low 32 bits of a header: Lh (R105). -/
def headerLength (hdr : Block) : Nat := (hdr.extractLsb' 0 32).toNat

/-- The number of data blocks of N plaintext bytes (R99). -/
def dataBlockCount (n : Nat) : Nat := (n + 7) / 8

/-- DataBlock(j), 1 ≤ j (R99): eight bytes of IN, or the 1 to 7 tail bytes in the high bytes followed by pad
draws in the low bytes. None where IN lacks a byte it should hold. -/
def dataBlock (s : State) (j : Nat) : Option Block :=
  if 8 * (j - 1) + 8 ≤ opInLen s then opMemRead s (8 * (j - 1)) 8
  else
    (opBytes s (8 * (j - 1)) (opInLen s - 8 * (j - 1))).map
      (fun tail => beValue (tail ++ opPad s (8 - (opInLen s - 8 * (j - 1)))))

/-- Data blocks j, j + 1, …, n of them (R99). -/
def dataBlocks (s : State) (j : Nat) : Nat → Option (List Block)
  | 0 => some []
  | n + 1 =>
    match dataBlock s j with
    | none => none
    | some b => (dataBlocks s (j + 1) n).map (fun bs => b :: bs)

/-- Ciphertext blocks of IN from offset a up, n of them (R107). -/
def readBlocks (s : State) (a : Nat) : Nat → Option (List Block)
  | 0 => some []
  | n + 1 =>
    match opMemRead s a 8 with
    | none => none
    | some b => (readBlocks s (a + 8) n).map (fun bs => b :: bs)

/-- Whole blocks written at rising offsets from a (R102, R103). -/
def writeBlocks (m : Memory) (a : Nat) : List Block → Memory
  | [] => m
  | v :: vs => writeBlocks (memWrite m a 8 v) (a + 8) vs

/-- Blocks written at rising offsets from a, the last without its low padding bytes (R107). -/
def writeTruncated (m : Memory) (a padding : Nat) : List Block → Memory
  | [] => m
  | [v] => memWrite m a (8 - padding) (v >>> (8 * padding))
  | v :: w :: vs => writeTruncated (memWrite m a 8 v) (a + 8) padding (w :: vs)

/-- One message encrypted (R102, R103): the header and the data blocks through the engine from prev = IV. -/
def frameEncrypt (mode : Mode) (s : State) : Result :=
  whenRunning s (withKey s (withSize s
    (match dataBlocks s 1 (dataBlockCount (opInLen s)) with
      | none => .refused (.inReadOutOfRange (opInLen s))
      | some bs =>
        let r := runEngine mode .encrypt s.rk s.params.iv (headerBlock (opRand32 s) (opInLen s) :: bs)
        .next (completeFrame (commitChain mode s r.2) (writeBlocks [] 0 r.1)
          (8 * (dataBlockCount (opInLen s) + 1))))))

/-- The body of one message decrypted (R107), once the header hdr has passed the format checks; prev is the
chaining value after the header. -/
def frameBody (mode : Mode) (s : State) (hdr prev : Block) : Result :=
  match readBlocks s 8 ((opInLen s - 8) / 8) with
  | none => .refused (.inReadOutOfRange (opInLen s))
  | some cs =>
    let r := runEngine mode .decrypt s.rk prev cs
    .next (completeFrame (commitChain mode s r.2)
      (writeTruncated [] 0 (opInLen s - 8 - headerLength hdr) r.1) (headerLength hdr))

/-- One message decrypted (R108, R109): admission (R104), header recovery (R105), format checks (R106), data
blocks and tail (R107). The register writes come last, so a fault leaves PREV alone. -/
def frameDecrypt (mode : Mode) (s : State) : Result :=
  whenRunning s (withKey s (withSize s (withAlignment s
    (match opMemRead s 0 8 with
      | none => .refused (.inReadOutOfRange (opInLen s))
      | some c0 =>
        let h := engineStep mode .decrypt s.rk s.params.iv c0
        withFormat s h.1 (headerLength h.1) (opInLen s - 8) (frameBody mode s h.1 h.2)))))

/-- FRM.E.ECB (R102). -/
def execFrmEEcb (s : State) : Result := frameEncrypt .ecb s

/-- FRM.D.ECB (R108). -/
def execFrmDEcb (s : State) : Result := frameDecrypt .ecb s

/-- FRM.E.CBC (R103). -/
def execFrmECbc (s : State) : Result := frameEncrypt .cbc s

/-- FRM.D.CBC (R109). -/
def execFrmDCbc (s : State) : Result := frameDecrypt .cbc s

end Sys2Proof.Machine
end

