-- ==== Sys2Proof/Machine/Dispatch.lean ====
section
/-! DEFINITION. One arm per command, each a direct call of its meaning. -/

namespace Sys2Proof.Machine

def exec (i : Instr) (s : State) : Host.Outcome State Fault Refusal :=
  match i with
  | .ksched => Sys2Proof.Machine.execKsched s
  | .blkE => Sys2Proof.Machine.execBlkE s
  | .blkD => Sys2Proof.Machine.execBlkD s
  | .cbcInit => Sys2Proof.Machine.execCbcInit s
  | .ecbE => Sys2Proof.Machine.execEcbE s
  | .ecbD => Sys2Proof.Machine.execEcbD s
  | .cbcE => Sys2Proof.Machine.execCbcE s
  | .cbcD => Sys2Proof.Machine.execCbcD s
  | .frmEEcb => Sys2Proof.Machine.execFrmEEcb s
  | .frmDEcb => Sys2Proof.Machine.execFrmDEcb s
  | .frmECbc => Sys2Proof.Machine.execFrmECbc s
  | .frmDCbc => Sys2Proof.Machine.execFrmDCbc s

end Sys2Proof.Machine
end

