-- ==== Sys2Proof/Machine/Step.lean ====
section
/-! DEFINITION. One step: the host's next event takes effect (spec 30_encoding.md R40, 20_memory.md R37 point 1).
A command is atomic and runs to completion or to its fault within the step (R37 point 2, R118). -/

namespace Sys2Proof.Machine

/-- The host presents a command: it leaves the list of coming events and its operands stand on the port. -/
def present (s : State) (rest : List HostEvent) (ops : Operands) : State := { s with host := rest, ops := ops }

/-- The step. Test 1 of R115 (STATUS ≠ 0) is applied by every meaning, by the rejection of an illegal word, and
by idling, so it comes before the decoder's fault. -/
def step (s : State) : Host.Outcome State Fault Refusal :=
  match s.host with
  | [] => idle s
  | .reset :: rest => .next (hostReset s.params rest)
  | .command cmd ops :: rest =>
    match decode cmd with
    | .ok i => exec i (present s rest ops)
    | .error _ => rejectWord cmd (present s rest ops)

/-- The host presents the command word w next, with the operands that stand on the port; what it would have
done before comes after (log 8). A command word is always 8 bits (R40), so nbits adds nothing. -/
def State.withFetchWord (s : State) (_nbits w : Nat) : State :=
  { s with host := .command (BitVec.ofNat 8 w) s.ops :: s.host }

end Sys2Proof.Machine
end

