-- ==== Sys2Proof/Machine/CommandLine.lean ====
section
/-! DEFINITION. The textual syntax as pure functions: key text packed into KEY64 (spec 30_encoding.md R51) and the
one pseudo-instruction, the command line expanded into commands (R53). Parsing is the host's (00_scope.md R4);
the packing and the expansion are the spec's. No meaning uses this file. -/

namespace Sys2Proof.Machine

/-- The value of an ASCII hex digit [0-9a-fA-F], none for any other character (R51). -/
def hexDigit (c : Byte) : Option (BitVec 4) :=
  if 0x30 ≤ c.toNat ∧ c.toNat ≤ 0x39 then some (BitVec.ofNat 4 (c.toNat - 0x30))
  else if 0x61 ≤ c.toNat ∧ c.toNat ≤ 0x66 then some (BitVec.ofNat 4 (c.toNat - 0x61 + 10))
  else if 0x41 ≤ c.toNat ∧ c.toNat ≤ 0x46 then some (BitVec.ofNat 4 (c.toNat - 0x41 + 10))
  else none

/-- Every character's hex digit, none where one is no digit. -/
def hexDigits : List Byte → Option (List (BitVec 4))
  | [] => some []
  | c :: cs =>
    match hexDigit c with
    | none => none
    | some d => (hexDigits cs).map (fun ds => d :: ds)

/-- Sixteen hex digits, the first in KEY64[63:60] (R51). -/
def packHex (ds : List (BitVec 4)) : Block := BitVec.ofNat 64 (ds.foldl (fun acc d => 16 * acc + d.toNat) 0)

/-- A printable character. PRESUMED (log 11): those of ASCII, 0x20 to 0x7E; R51 says "printable" only. -/
def printable (c : Byte) : Bool := decide (0x20 ≤ c.toNat ∧ c.toNat ≤ 0x7E)

/-- Eight printable characters, character i in KEY64[63−8i : 56−8i] (R51). -/
def packChars (cs : List Byte) : Option Block := if cs.all printable then some (beValue cs) else none

/-- Key text in one of its three shapes: 16 hex digits, 8 printable characters, or 10 characters whose first and
last are single quotes (R51). None is no key. For text of another length R51 has the host call it a "malformed key".
DESIGN CHOICE (log 11): text of these lengths that fits no shape is no key either: 16 characters that are not all hex
digits, 8 or quoted 8 that are not all printable, 10 not in single quotes. The spec does not classify it
(91_not_in_source.md N12, 93_implementation_defined.md U19). -/
def keyOfText (text : List Byte) : Option Block :=
  if text.length = 16 then (hexDigits text).map packHex
  else if text.length = 8 then packChars text
  else if text.length = 10 ∧ text.head? = some 0x27 ∧ text.getLast? = some 0x27 then
    packChars ((text.drop 1).take 8)
  else none

/-- The FRM command of an action and a mode (R53). -/
def frameCommand : Action → Mode → Instr
  | .encrypt, .ecb => .frmEEcb
  | .decrypt, .ecb => .frmDEcb
  | .encrypt, .cbc => .frmECbc
  | .decrypt, .cbc => .frmDCbc

/-- A byte string as a buffer: byte k at offset a + k. -/
def bufferFrom (a : Nat) : List Byte → Memory
  | [] => []
  | b :: bs => (a, b) :: bufferFrom (a + 1) bs

/-- des <action> <key> <mode> <in> <out> (R53): reset, KSCHED, then one FRM command on the bytes of the input.
The draws are whatever the random source gives (R22). -/
def desEvents (action : Action) (key : Block) (mode : Mode) (input : List Byte) (rand32 : BitVec 32)
    (pad : Vector Byte 7) : List HostEvent :=
  let o : Operands :=
    { key64 := key, din := 0, inBuf := bufferFrom 0 input, inLen := BitVec.ofNat 64 input.length,
      rand32 := rand32, pad := pad }
  [.reset, .command (encode .ksched) o, .command (encode (frameCommand action mode)) o]

/-- What the host keeps of a run (R53, R138): the output file's bytes, none unless STATUS = 0. -/
def outputFile (s : State) : Option (List Byte) := if s.status = 0 then some (s.out.map Prod.snd) else none

end Sys2Proof.Machine
end

