-- ==== Sys2Proof/Safety.lean ====
section
/-! DEFINITION. What counts as a good state and a good run, in the terms the statements use. -/

namespace Sys2Proof.Machine

/-- STATUS holds 0 or the code of a cause that CORE raises: never 2, 3, 4, never another value
(spec 10_state.md R15, 60_exceptions.md R113, R114). -/
abbrev State.statusLegal (s : State) : Prop :=
  s.status = 0 ∨ s.status = 1 ∨ s.status = 5 ∨ s.status = 6 ∨ s.status = 7 ∨ s.status = 8 ∨ s.status = 9

/-- STATUS is the code of the cause that info records, and 0 where it records none (R113, R116). -/
abbrev State.infoAgrees (s : State) : Prop :=
  s.status = (match s.info with | none => 0 | some x => faultCode x)

/-- A FAULTED CORE shows no result: no DOUT, OUT empty, OUT_LEN = 0 (R116). -/
abbrev State.faultedEmpty (s : State) : Prop :=
  s.status ≠ 0 → s.dout = none ∧ s.out = [] ∧ s.outLen = 0

/-- OUT holds exactly the bytes at offsets 0 … OUT_LEN − 1 (20_memory.md R27, R32), so it is canonical. -/
abbrev State.outDense (s : State) : Prop := Memory.dense s.out s.outLen

/-- The invariant of CORE. -/
abbrev State.Inv (s : State) : Prop :=
  s.statusLegal ∧ s.infoAgrees ∧ s.faultedEmpty ∧ s.outDense

/-- An event the host may issue: a reset, or a command whose buffer is well-formed. -/
abbrev HostEvent.wf (p : Config.Params) (e : HostEvent) : Prop :=
  match e with
  | .reset => True
  | .command _ o => Operands.wf p o

/-- The host's side is well-formed: what stands on the port and what it will present. -/
abbrev State.hostWf (s : State) : Prop := Operands.wf s.params s.ops ∧ ∀ e ∈ s.host, HostEvent.wf s.params e

/-- The state a run has ended well in (70_reset_and_hazards.md R138): the host issues no more, STATUS = 0. -/
abbrev State.endedWell (s : State) : Prop := s.host = [] ∧ s.status = 0

/-- The whole architectural state (10_state.md R10), without the transaction interface. -/
structure Arch where
  rk     : Schedule
  rkv    : Bool
  prev   : Block
  prevv  : Bool
  status : BitVec 8
  deriving DecidableEq, Repr

/-- The architectural part of a state. -/
def State.arch (s : State) : Arch :=
  { rk := s.rk, rkv := s.rkv, prev := s.prev, prevv := s.prevv, status := s.status }

/-- From s the command has raised x and ended in t: no register but STATUS has changed, and there is no result
(60_exceptions.md R116); the cause with its info is what the host is told (R113). -/
def State.raised (s : State) (x : FaultCause) (t : State) : Prop :=
  t.arch = { s.arch with status := faultCode x } ∧ t.dout = none ∧ t.out = [] ∧ t.outLen = 0 ∧ t.info = some x

/-- An outcome with its next state changed by g; a fault or a refusal stays as it is. -/
def mapNext (g : State → State) (o : Result) : Result :=
  match o with
  | .next t => .next (g t)
  | .fault r => .fault r
  | .refused r => .refused r

/-- The state with DIN on the port. -/
def State.withDin (s : State) (b : Block) : State := { s with ops := { s.ops with din := b } }

/-- One block command on DIN = b: its DOUT and the state after, none where it gives no DOUT. -/
def issueBlock (i : Instr) (s : State) (b : Block) : Option (Block × State) :=
  match exec i (s.withDin b) with
  | .next t => t.dout.map (fun d => (d, t))
  | .fault _ => none
  | .refused _ => none

/-- One block command per block in stream order (44_mode_engines.md R88, R95): the DOUTs and the state after. -/
def issueBlocks (i : Instr) : List Block → State → Option (List Block × State)
  | [], s => some ([], s)
  | b :: bs, s =>
    match issueBlock i s b with
    | none => none
    | some r => (issueBlocks i bs r.2).map (fun q => (r.1 :: q.1, q.2))

end Sys2Proof.Machine

namespace Sys2Proof

/-- The commands that read RK (R113, KeyNotLoaded). -/
def Instr.readsKey : Instr → Bool
  | .ksched | .cbcInit => false
  | .blkE | .blkD | .ecbE | .ecbD | .cbcE | .cbcD | .frmEEcb | .frmDEcb | .frmECbc | .frmDCbc => true

/-- The FRM commands, the only ones that write OUT (10_state.md R24). -/
def Instr.isFrame : Instr → Bool
  | .frmEEcb | .frmDEcb | .frmECbc | .frmDCbc => true
  | .ksched | .blkE | .blkD | .cbcInit | .ecbE | .ecbD | .cbcE | .cbcD => false

end Sys2Proof
end

