-- ==== Sys2Proof/Certificates/Slice0/Obligations.lean ====
section
/-! DEFINITION. The statements for the provers, from the numbered rules of spec/. Rule numbers are the spec's. -/

open Sys2Proof Sys2Proof.Machine

/-! ## The command word -/

/-- R42: each word of the opcode map, read from its fields ZERO OP M A, decodes to its command. -/
def Obligations.OpcodeMapDecodes : Prop :=
  decode 0b00000000 = .ok .ksched ∧ decode 0b00000100 = .ok .blkE ∧ decode 0b00000101 = .ok .blkD ∧
  decode 0b00001010 = .ok .cbcInit ∧ decode 0b00001100 = .ok .ecbE ∧ decode 0b00001101 = .ok .ecbD ∧
  decode 0b00001110 = .ok .cbcE ∧ decode 0b00001111 = .ok .cbcD ∧ decode 0b00010000 = .ok .frmEEcb ∧
  decode 0b00010001 = .ok .frmDEcb ∧ decode 0b00010010 = .ok .frmECbc ∧ decode 0b00010011 = .ok .frmDCbc

/-- R42, R48: decoding an encoded command gives it back, and a word that decodes to a command is its word. -/
def Obligations.DecodeInvertsEncode : Prop :=
  (∀ i : Instr, decode (encode i) = .ok i) ∧ ∀ (w : Byte) (i : Instr), decode w = .ok i → encode i = w

/-- R43: the illegal words by group, 244 of the 256 values, and the fault that each raises. That the step takes the
event from the host's list and leaves the command's operands on the port (R37, R40) is the model's choice, log 1 and
log 2. -/
def Obligations.IllegalWordsRaiseIllegalCommand : Prop :=
  (∀ w : Byte,
    (decode w = .error .kschedBits ↔ w = 0x01 ∨ w = 0x02 ∨ w = 0x03) ∧
    (decode w = .error .blkMode ↔ w = 0x06 ∨ w = 0x07) ∧
    (decode w = .error .cinitBits ↔ w = 0x08 ∨ w = 0x09 ∨ w = 0x0B) ∧
    (decode w = .error .reservedOp ↔ 0x14 ≤ w.toNat ∧ w.toNat ≤ 0x1F) ∧
    (decode w = .error .reservedZero ↔ 0x20 ≤ w.toNat)) ∧
  ((List.range 256).filter (fun n => (decodeTableWord 8 n).isNone)).length = 244 ∧
  ∀ (s : State) (w : Byte) (o : Operands) (rest : List HostEvent) (e : IllegalWord),
    s.host = .command w o :: rest → decode w = .error e → s.status = 0 →
    ∃ t, step s = .next t ∧ t.status = 1 ∧ s.raised (.illegalCommand w) t ∧ t.host = rest ∧ t.ops = o

/-! ## The step -/

/-- R37 point 1, R40: when the host's next event is a command whose word decodes to i, the step is exec i on the
state with that event taken from the list (the model's field, log 1) and its operands on the port (log 2). -/
def Obligations.StepRunsDecodedCommand : Prop :=
  ∀ (s : State) (w : Byte) (o : Operands) (rest : List HostEvent) (i : Instr),
    s.host = .command w o :: rest → decode w = .ok i →
    step s = Sys2Proof.Machine.exec i { s with host := rest, ops := o }

/-- R117, R115 test 1: with STATUS ≠ 0 every command, legal or not, and idling end in the fault outcome, and a
reset is the one step that completes; it clears STATUS. -/
def Obligations.FaultedIsTerminal : Prop :=
  ∀ s : State, s.status ≠ 0 →
    (∀ i : Instr, Sys2Proof.Machine.exec i s = .fault (.faulted s.status)) ∧
    ((∀ rest, s.host ≠ .reset :: rest) → step s = .fault (.faulted s.status)) ∧
    (∀ rest, s.host = .reset :: rest → ∃ t, step s = .next t ∧ t.status = 0)

/-- R23, R127: RKV = 0, PREVV = 0, STATUS = 0 in the reset state and after a reset step from any state; what the
host will do next (the model's list, log 1) is what it was going to do. -/
def Obligations.ResetClearsFlagsAndStatus : Prop :=
  (State.reset.rkv = false ∧ State.reset.prevv = false ∧ State.reset.status = 0) ∧
  ∀ (s : State) (rest : List HostEvent), s.host = .reset :: rest →
    ∃ t, step s = .next t ∧ t.rkv = false ∧ t.prevv = false ∧ t.status = 0 ∧ t.host = rest

/-- R6, R16, R21 (that State holds the parameters is log 9): IV and MAXLEN have the spec's defaults in the reset state,
and no step, whatever it does, changes either. Every other statement holds for every value of the two. -/
def Obligations.ParametersAreConstants : Prop :=
  (State.reset.params.iv = 0xFB3C718924605AED ∧ State.reset.params.maxLen.toNat = 2 ^ 31 - 1) ∧
  ∀ s t : State, step s = .next t → t.params = s.params

/-- R126 (log 7, the model's choice of what a step without a command is): with STATUS = 0 and no event from the
host the state stays as it is. -/
def Obligations.IdlingHoldsTheState : Prop :=
  ∀ s : State, s.host = [] → s.status = 0 → step s = .next s

/-- R18, R40: a command runs to completion before the next is looked at. The events after the next one (the
model's list, log 1) do not bear on a step. -/
def Obligations.LaterEventsDoNotMatter : Prop :=
  ∀ (s : State) (e : HostEvent) (rest rest' : List HostEvent),
    step { s with host := e :: rest' } = mapNext (fun t => { t with host := rest' }) (step { s with host := e :: rest })

/-! ## Primitives, tables, buffers -/

/-- R56: output bit i of permute is input bit (in_bits − table[out_bits − 1 − i]). -/
def Obligations.PermuteSelectsTheNamedBits : Prop :=
  ∀ (w n : Nat) (table : List Nat) (input : BitVec w),
    table.length = n → (∀ t ∈ table, 1 ≤ t ∧ t ≤ w) →
    ∀ i, i < n → (permute n table input).getLsbD i = input.getLsbD (w - table.getD (n - 1 - i) 0)

/-- R58, R59: the halves are the high and the low bits, and split and join undo each other. -/
def Obligations.SplitAndJoinAreInverse : Prop :=
  (∀ v : BitVec 56, (split56 v).1.toNat = v.toNat / 2 ^ 28 ∧ (split56 v).2.toNat = v.toNat % 2 ^ 28 ∧
    join56 (split56 v).1 (split56 v).2 = v) ∧
  (∀ l r : KeyHalf, split56 (join56 l r) = (l, r)) ∧
  (∀ v : Block, (split64 v).1.toNat = v.toNat / 2 ^ 32 ∧ (split64 v).2.toNat = v.toNat % 2 ^ 32 ∧
    join64 (split64 v).1 (split64 v).2 = v) ∧
  (∀ l r : Half, split64 (join64 l r) = (l, r))

/-- R60: rotL28 by 1 or 2 moves bit i to bit (i + n) mod 28, and rotations whose amounts sum to 28 return the value
they started from (R79 point 2 is the case of the table ROT). -/
def Obligations.RotationMovesEveryBit : Prop :=
  (∀ (h : KeyHalf) (n i : Nat), n = 1 ∨ n = 2 → i < 28 →
    (rotL28 h n).getLsbD ((i + n) % 28) = h.getLsbD i) ∧
  ∀ (h : KeyHalf) (ns : List Nat), (∀ n ∈ ns, n = 1 ∨ n = 2) → ns.sum = 28 → ns.foldl rotL28 h = h

/-- R61: byteswap64 reverses the bytes and is its own inverse. -/
def Obligations.ByteswapReversesBytes : Prop :=
  ∀ v : Block, byteswap64 (byteswap64 v) = v ∧
    ∀ k, k < 8 → (byteswap64 v).extractLsb' (56 - 8 * k) 8 = v.extractLsb' (56 - 8 * (7 - k)) 8

/-- R62, R63: extract6, srow and scol as the document's shifts and masks. -/
def Obligations.SixBitFieldsRowAndColumn : Prop :=
  (∀ (v : RoundKey) (i : Nat), 1 ≤ i → i ≤ 8 →
    (extract6 v i).toNat = ((v >>> (48 - 6 * i)) &&& 0x3F).toNat) ∧
  ∀ b : BitVec 6, srow b = (((b &&& 0b100000) >>> 4) ||| (b &&& 1)).toNat ∧
    scol b = ((b >>> 1) &&& 0b1111).toNat

/-- R74: the structural checks of the tables, row by row, as Machine/Tables.lean runs them (the spec takes the listings from general knowledge, log 10). -/
def Obligations.TablesPassStructuralChecks : Prop :=
  ([tablePC1, tablePC2, tableROT, tableIP, tableFP, tableE, tableP].map List.length = [56, 48, 16, 64, 64, 48, 32]) ∧
  ([tablePC1, tablePC2, tableIP, tableFP, tableE, tableP].map List.sum = [1792, 1352, 2080, 2080, 792, 528]) ∧
  (∀ t, t < 65 → tablePC1.count t = if 1 ≤ t ∧ t % 8 ≠ 0 then 1 else 0) ∧
  (∀ t, t < 57 → tablePC2.count t = if 1 ≤ t ∧ t ∉ [9, 18, 22, 25, 35, 38, 43, 54] then 1 else 0) ∧
  (∀ t, 1 ≤ t → t < 65 → tableIP.count t = 1 ∧ tableFP.count t = 1) ∧
  (∀ t, 1 ≤ t → t < 33 → tableP.count t = 1) ∧
  (∀ q, 1 ≤ q → q < 65 → tableFP.getD (tableIP.getD (q - 1) 0 - 1) 0 = q) ∧
  (∀ g, g < 8 → ∀ h, h < 6 → tableE.getD (6 * g + h) 0 = (4 * g + h + 31) % 32 + 1) ∧
  (tableROT.sum = 28) ∧
  (∀ n, n < 8 → ∀ row, row < 4 → ∀ v, v < 16 → ((tableS (n + 1)).drop (16 * row) |>.take 16).count v = 1) ∧
  (∀ n, n < 8 → (tableS (n + 1)).sum = 480 ∧ (tableS (n + 1)).length = 64)

/-- R70: IP⁻¹ undoes IP, and the other way round, on every 64-bit value. -/
def Obligations.FinalPermutationInvertsInitial : Prop :=
  ∀ v : Block, permute 64 tableFP (permute 64 tableIP v) = v ∧ permute 64 tableIP (permute 64 tableFP v) = v

/-- R31: MemRead(a, n) with 1 ≤ n ≤ 8 answers v exactly when v is an 8n-bit value whose bytes, most significant first,
stand at a … a + n − 1. That it answers nothing where one of them does not exist is the model's choice, which R31
permits ("may"), log 5. R32: after MemWrite(a, n, v) with n ≤ 8, offset a + i holds v[8(n−i)−1 : 8(n−1−i)] and every
other offset is as before. -/
def Obligations.MemoryIsBigEndian : Prop :=
  ∀ (m : Memory) (a n : Nat) (v : Block), n ≤ 8 →
    (1 ≤ n → (memRead m a n = some v ↔
      v.toNat < 2 ^ (8 * n) ∧ ∀ i, i < n → byteAt m (a + i) = some (v.extractLsb' (8 * (n - 1 - i)) 8))) ∧
    (∀ i, i < n → byteAt (memWrite m a n v) (a + i) = some (v.extractLsb' (8 * (n - 1 - i)) 8)) ∧
    ∀ x, x < a ∨ a + n ≤ x → byteAt (memWrite m a n v) x = byteAt m x

/-- R51: eight printable characters, plain or between single quotes, and sixteen hex digits 0-9, a-f, A-F, are packed
with the first character in the most significant place; a text of another length is no key. Which characters are
printable, 0x20 to 0x7E, is the model's choice (PRESUMED, log 11): R51 gives no range. -/
def Obligations.KeyTextPacking : Prop :=
  (∀ cs : List Byte, cs.length = 8 → (∀ c ∈ cs, 0x20 ≤ c.toNat ∧ c.toNat ≤ 0x7E) →
    ∃ k, keyOfText cs = some k ∧ keyOfText (0x27 :: cs ++ [0x27]) = some k ∧
      ∀ i, i < 8 → some (k.extractLsb' (56 - 8 * i) 8) = cs[i]?) ∧
  (∀ cs : List Byte, cs.length = 16 →
    (∀ c ∈ cs, (0x30 ≤ c.toNat ∧ c.toNat ≤ 0x39) ∨ (0x61 ≤ c.toNat ∧ c.toNat ≤ 0x66) ∨
      (0x41 ≤ c.toNat ∧ c.toNat ≤ 0x46)) →
    ∃ k, keyOfText cs = some k ∧ ∀ i c, i < 16 → cs[i]? = some c →
      (0x30 ≤ c.toNat ∧ c.toNat ≤ 0x39 → (k.extractLsb' (60 - 4 * i) 4).toNat = c.toNat - 0x30) ∧
      (0x61 ≤ c.toNat ∧ c.toNat ≤ 0x66 → (k.extractLsb' (60 - 4 * i) 4).toNat = c.toNat - 0x61 + 10) ∧
      (0x41 ≤ c.toNat ∧ c.toNat ≤ 0x46 → (k.extractLsb' (60 - 4 * i) 4).toNat = c.toNat - 0x41 + 10)) ∧
  ∀ cs : List Byte, cs.length ≠ 8 → cs.length ≠ 10 → cs.length ≠ 16 → keyOfText cs = none

/-! ## Key schedule -/

/-- R78: KSCHED writes the schedule of KEY64 and RKV, and no other register; with STATUS ≠ 0 it is refused; it
raises nothing. -/
def Obligations.KschedWritesTheSchedule : Prop :=
  encode .ksched = 0x00 ∧ ∀ s : State,
    (s.status ≠ 0 → Sys2Proof.Machine.exec .ksched s = .fault (.faulted s.status)) ∧
    (s.status = 0 → ∃ t, Sys2Proof.Machine.exec .ksched s = .next t ∧ t.dout = none ∧
      t.arch = { s.arch with rk := keySchedule s.ops.key64, rkv := true })

/-- R76, R77: C and D start as the halves of PC-1 of the key; in round i both are rotated by ROT[i], then rk[i] is
PC-2 of the two joined. -/
def Obligations.RoundKeysFollowTheRotations : Prop :=
  ∀ key : Block, ∃ C D : Nat → KeyHalf,
    split56 (permute 56 tablePC1 key) = (C 0, D 0) ∧
    ∀ i : Fin 16,
      C (i + 1) = rotL28 (C i) (tableROT.getD i 0) ∧ D (i + 1) = rotL28 (D i) (tableROT.getD i 0) ∧
      (keySchedule key)[i] = permute 48 tablePC2 (join56 (C (i + 1)) (D (i + 1)))

/-- R79 point 1: bits 0, 8, …, 56 of the key do not bear on the schedule. -/
def Obligations.ScheduleIgnoresParityBits : Prop :=
  ∀ key m : Block, (∀ i, i < 64 → m.getLsbD i = true → i % 8 = 0) →
    keySchedule (key ^^^ m) = keySchedule key

/-- R79 point 3: the four keys whose schedule is sixteen times one value. -/
def Obligations.WeakKeySchedules : Prop :=
  keySchedule 0x0101010101010101 = Vector.replicate 16 0 ∧ keySchedule 0 = Vector.replicate 16 0 ∧
  keySchedule 0xFFFFFFFFFFFFFFFF = Vector.replicate 16 0xFFFFFFFFFFFF ∧
  keySchedule 0xFEFEFEFEFEFEFEFE = Vector.replicate 16 0xFFFFFFFFFFFF

/-- R79 point 4: the high 24 bits of a round key come from C only, the low 24 from D only. -/
def Obligations.RoundKeyHalvesStayApart : Prop :=
  ∀ c c' d d' : KeyHalf,
    (permute 48 tablePC2 (join56 c d)).extractLsb' 24 24 = (permute 48 tablePC2 (join56 c d')).extractLsb' 24 24 ∧
    (permute 48 tablePC2 (join56 c d)).extractLsb' 0 24 = (permute 48 tablePC2 (join56 c' d)).extractLsb' 0 24

/-! ## Block transform -/

/-- R81: box i serves field i, and its output is nibble i of the result, S1 most significant. R81 marks this placement
as "from general knowledge, not in source" (log 10). -/
def Obligations.SboxOutputsInOrder : Prop :=
  ∀ (v : RoundKey) (i : Nat), 1 ≤ i → i ≤ 8 →
    (sbox v).extractLsb' (32 - 4 * i) 4 = sEntry i (srow (extract6 v i)) (scol (extract6 v i))

/-- R82, R83: Transform is IP, sixteen rounds in which round i uses rk[i] or rk[15 − i], the swap, and IP⁻¹. -/
def Obligations.TransformIsSixteenRounds : Prop :=
  ∀ (b : Block) (rk : Schedule) (action : Action), ∃ L R : Nat → Half,
    split64 (permute 64 tableIP b) = (L 0, R 0) ∧
    (∀ i : Fin 16, L (i + 1) = R i ∧
      R (i + 1) = L i ^^^ permute 32 tableP (sbox (permute 48 tableE (R i) ^^^
        (match action with | .encrypt => rk[i] | .decrypt => rk[15 - i.val])))) ∧
    transform b rk action = permute 64 tableFP (join64 (R 16) (L 16))

/-- R87: for any sixteen round keys the two actions undo each other; where the schedule reads the same in both
directions they are one function and an involution. -/
def Obligations.TransformInverseLaw : Prop :=
  ∀ (b : Block) (rk : Schedule),
    transform (transform b rk .encrypt) rk .decrypt = b ∧
    transform (transform b rk .decrypt) rk .encrypt = b ∧
    ((∀ i : Fin 16, rk[i] = rk[15 - i.val]) →
      transform b rk .encrypt = transform b rk .decrypt ∧
      transform (transform b rk .encrypt) rk .encrypt = b)

/-! ## Commands on one block -/

/-- R84, R85: BLK.E and BLK.D. -/
def Obligations.BlockCommandsTransformDin : Prop :=
  encode .blkE = 0x04 ∧ encode .blkD = 0x05 ∧ ∀ s : State,
    (s.status ≠ 0 → Sys2Proof.Machine.exec .blkE s = .fault (.faulted s.status) ∧
      Sys2Proof.Machine.exec .blkD s = .fault (.faulted s.status)) ∧
    (s.status = 0 → s.rkv = false →
      (∃ t, Sys2Proof.Machine.exec .blkE s = .next t ∧ s.raised .keyNotLoaded t) ∧
      (∃ t, Sys2Proof.Machine.exec .blkD s = .next t ∧ s.raised .keyNotLoaded t)) ∧
    (s.status = 0 → s.rkv = true →
      (∃ t, Sys2Proof.Machine.exec .blkE s = .next t ∧ t.arch = s.arch ∧
        t.dout = some (transform s.ops.din s.rk .encrypt)) ∧
      (∃ t, Sys2Proof.Machine.exec .blkD s = .next t ∧ t.arch = s.arch ∧
        t.dout = some (transform s.ops.din s.rk .decrypt)))

/-- R90, R91: ECB.E and ECB.D; they compute the functions of BLK.E and BLK.D. -/
def Obligations.EcbCommandsTransformDin : Prop :=
  encode .ecbE = 0x0C ∧ encode .ecbD = 0x0D ∧ ∀ s : State,
    (s.status ≠ 0 → Sys2Proof.Machine.exec .ecbE s = .fault (.faulted s.status) ∧
      Sys2Proof.Machine.exec .ecbD s = .fault (.faulted s.status)) ∧
    (s.status = 0 → s.rkv = false →
      (∃ t, Sys2Proof.Machine.exec .ecbE s = .next t ∧ s.raised .keyNotLoaded t) ∧
      (∃ t, Sys2Proof.Machine.exec .ecbD s = .next t ∧ s.raised .keyNotLoaded t)) ∧
    (s.status = 0 → s.rkv = true →
      (∃ t, Sys2Proof.Machine.exec .ecbE s = .next t ∧ t.arch = s.arch ∧
        t.dout = some (transform s.ops.din s.rk .encrypt)) ∧
      (∃ t, Sys2Proof.Machine.exec .ecbD s = .next t ∧ t.arch = s.arch ∧
        t.dout = some (transform s.ops.din s.rk .decrypt))) ∧
    Sys2Proof.Machine.exec .ecbE s = Sys2Proof.Machine.exec .blkE s ∧
    Sys2Proof.Machine.exec .ecbD s = Sys2Proof.Machine.exec .blkD s

/-- R89: CBC.INIT writes PREV <- IV and PREVV <- 1, with or without a key; IV at its default is FB3C718924605AED. -/
def Obligations.CbcInitLoadsTheIv : Prop :=
  encode .cbcInit = 0x0A ∧ ∀ s : State,
    (s.status ≠ 0 → Sys2Proof.Machine.exec .cbcInit s = .fault (.faulted s.status)) ∧
    (s.status = 0 → ∃ t, Sys2Proof.Machine.exec .cbcInit s = .next t ∧ t.dout = none ∧
      t.arch = { s.arch with prev := s.params.iv, prevv := true } ∧
      (s.params = Config.defaults → t.prev = 0xFB3C718924605AED))

/-- R92: CBC.E. -/
def Obligations.CbcEncryptChainsTheCiphertext : Prop :=
  encode .cbcE = 0x0E ∧ ∀ s : State,
    (s.status ≠ 0 → Sys2Proof.Machine.exec .cbcE s = .fault (.faulted s.status)) ∧
    (s.status = 0 → s.rkv = false → ∃ t, Sys2Proof.Machine.exec .cbcE s = .next t ∧ s.raised .keyNotLoaded t) ∧
    (s.status = 0 → s.rkv = true → s.prevv = false →
      ∃ t, Sys2Proof.Machine.exec .cbcE s = .next t ∧ t.status = 9 ∧ s.raised .chainNotInitialised t) ∧
    (s.status = 0 → s.rkv = true → s.prevv = true →
      ∃ t, Sys2Proof.Machine.exec .cbcE s = .next t ∧
        t.arch = { s.arch with prev := transform (s.ops.din ^^^ s.prev) s.rk .encrypt } ∧
        t.dout = some (transform (s.ops.din ^^^ s.prev) s.rk .encrypt))

/-- R93: CBC.D. PREV takes the ciphertext block, never the output. -/
def Obligations.CbcDecryptChainsTheCiphertext : Prop :=
  encode .cbcD = 0x0F ∧ ∀ s : State,
    (s.status ≠ 0 → Sys2Proof.Machine.exec .cbcD s = .fault (.faulted s.status)) ∧
    (s.status = 0 → s.rkv = false → ∃ t, Sys2Proof.Machine.exec .cbcD s = .next t ∧ s.raised .keyNotLoaded t) ∧
    (s.status = 0 → s.rkv = true → s.prevv = false →
      ∃ t, Sys2Proof.Machine.exec .cbcD s = .next t ∧ t.status = 9 ∧ s.raised .chainNotInitialised t) ∧
    (s.status = 0 → s.rkv = true → s.prevv = true →
      ∃ t, Sys2Proof.Machine.exec .cbcD s = .next t ∧
        t.arch = { s.arch with prev := s.ops.din } ∧
        t.dout = some (transform s.ops.din s.rk .decrypt ^^^ s.prev))

/-- R96 point 2: ECB.D returns what ECB.E took, and the other way round. -/
def Obligations.EcbRoundTrip : Prop :=
  ∀ (s : State) (b : Block), s.status = 0 → s.rkv = true →
    (∃ c t u, issueBlock .ecbE s b = some (c, t) ∧ issueBlock .ecbD t c = some (b, u)) ∧
    (∃ m t u, issueBlock .ecbD s b = some (m, t) ∧ issueBlock .ecbE t m = some (b, u))

/-- R96 point 1: a chain of CBC.E after CBC.INIT, decrypted by CBC.D after CBC.INIT under the same RK, returns the
blocks. -/
def Obligations.CbcChainRoundTrip : Prop :=
  ∀ (s : State) (bs : List Block), s.status = 0 → s.rkv = true →
    ∃ s0 cs s1 s2 s3, Sys2Proof.Machine.exec .cbcInit s = .next s0 ∧ issueBlocks .cbcE bs s0 = some (cs, s1) ∧
      cs.length = bs.length ∧
      Sys2Proof.Machine.exec .cbcInit s1 = .next s2 ∧ issueBlocks .cbcD cs s2 = some (bs, s3)

/-- R96 point 4: changing ciphertext block c to c ^ d changes its own plaintext block, changes the next one by
exactly d, and leaves every other block alone. -/
def Obligations.CbcErrorPropagation : Prop :=
  ∀ (s : State) (pre post : List Block) (c d : Block),
    s.status = 0 → s.rkv = true → s.prevv = true → d ≠ 0 →
    ∃ ms m m' qs t t', issueBlocks .cbcD (pre ++ c :: post) s = some (ms ++ m :: qs, t) ∧
      issueBlocks .cbcD (pre ++ (c ^^^ d) :: post) s =
        some (ms ++ m' :: (match qs with | [] => [] | q :: r => (q ^^^ d) :: r), t') ∧
      ms.length = pre.length ∧ m ≠ m'

/-! ## Frames -/

/-- R99: data block j holds plaintext bytes 8(j−1) … from its most significant byte down, and after the last of them
the pad draws from pad[0] on. -/
def Obligations.DataBlockBytes : Prop :=
  ∀ (s : State) (j : Nat), Operands.wf s.params s.ops → s.ops.inLen.toNat ≤ s.params.maxLen.toNat →
    1 ≤ j → j ≤ (s.ops.inLen.toNat + 7) / 8 →
    ∃ b, dataBlock s j = some b ∧ ∀ k, k < 8 →
      some (b.extractLsb' (56 - 8 * k) 8) =
        if 8 * (j - 1) + k < s.ops.inLen.toNat then byteAt s.ops.inBuf (8 * (j - 1) + k)
        else s.ops.pad[8 * (j - 1) + k - s.ops.inLen.toNat]?

/-- R102: FRM.E.ECB. Where it completes, OUT holds the encrypted header at offset 0 and the encrypted data block j at
offset 8j and nothing else, and no register is written. -/
def Obligations.FrameEncryptEcb : Prop :=
  encode .frmEEcb = 0x10 ∧ ∀ s : State,
    (s.status ≠ 0 → Sys2Proof.Machine.exec .frmEEcb s = .fault (.faulted s.status)) ∧
    (s.status = 0 → s.rkv = false → ∃ t, Sys2Proof.Machine.exec .frmEEcb s = .next t ∧ s.raised .keyNotLoaded t) ∧
    (s.status = 0 → s.rkv = true → s.ops.inLen.toNat > s.params.maxLen.toNat →
      ∃ t, Sys2Proof.Machine.exec .frmEEcb s = .next t ∧ s.raised (.size s.ops.inLen) t) ∧
    (s.status = 0 → s.rkv = true → s.ops.inLen.toNat ≤ s.params.maxLen.toNat → Operands.wf s.params s.ops →
      ∃ t, Sys2Proof.Machine.exec .frmEEcb s = .next t ∧ t.arch = s.arch ∧ t.dout = none ∧
        t.outLen = 8 * ((s.ops.inLen.toNat + 7) / 8 + 1) ∧ Memory.dense t.out t.outLen ∧
        memRead t.out 0 8 =
          some (transform (s.ops.rand32 ++ BitVec.ofNat 32 s.ops.inLen.toNat) s.rk .encrypt) ∧
        ∀ j, 1 ≤ j → j ≤ (s.ops.inLen.toNat + 7) / 8 →
          ∃ b, dataBlock s j = some b ∧ memRead t.out (8 * j) 8 = some (transform b s.rk .encrypt))

/-- R103: FRM.E.CBC, which does not look at PREVV. Where it completes, ciphertext block 0 is the encryption of
header ^ IV, block j that of data block j ^ block j − 1, and PREV is the last of them. -/
def Obligations.FrameEncryptCbc : Prop :=
  encode .frmECbc = 0x12 ∧ ∀ s : State,
    (s.status ≠ 0 → Sys2Proof.Machine.exec .frmECbc s = .fault (.faulted s.status)) ∧
    (s.status = 0 → s.rkv = false → ∃ t, Sys2Proof.Machine.exec .frmECbc s = .next t ∧ s.raised .keyNotLoaded t) ∧
    (s.status = 0 → s.rkv = true → s.ops.inLen.toNat > s.params.maxLen.toNat →
      ∃ t, Sys2Proof.Machine.exec .frmECbc s = .next t ∧ s.raised (.size s.ops.inLen) t) ∧
    (s.status = 0 → s.rkv = true → s.ops.inLen.toNat ≤ s.params.maxLen.toNat → Operands.wf s.params s.ops →
      ∃ (t : State) (c : Nat → Block), Sys2Proof.Machine.exec .frmECbc s = .next t ∧
        t.arch = { s.arch with prev := c ((s.ops.inLen.toNat + 7) / 8), prevv := true } ∧ t.dout = none ∧
        t.outLen = 8 * ((s.ops.inLen.toNat + 7) / 8 + 1) ∧ Memory.dense t.out t.outLen ∧
        c 0 = transform ((s.ops.rand32 ++ BitVec.ofNat 32 s.ops.inLen.toNat) ^^^ s.params.iv) s.rk .encrypt ∧
        (∀ j, 1 ≤ j → j ≤ (s.ops.inLen.toNat + 7) / 8 →
          ∃ b, dataBlock s j = some b ∧ c j = transform (b ^^^ c (j - 1)) s.rk .encrypt) ∧
        ∀ j, j ≤ (s.ops.inLen.toNat + 7) / 8 → memRead t.out (8 * j) 8 = some (c j))

/-- R108: FRM.D.ECB on the ciphertext blocks c 0 … c n, whose header gives the length Lh. With 0 ≤ 8n − Lh < 8 it
completes: OUT_LEN = Lh, byte a of OUT is byte a mod 8 of the decryption of block a / 8 + 1, and no register is written. -/
def Obligations.FrameDecryptEcb : Prop :=
  encode .frmDEcb = 0x11 ∧ ∀ s : State,
    (s.status ≠ 0 → Sys2Proof.Machine.exec .frmDEcb s = .fault (.faulted s.status)) ∧
    (s.status = 0 → s.rkv = false → ∃ t, Sys2Proof.Machine.exec .frmDEcb s = .next t ∧ s.raised .keyNotLoaded t) ∧
    (s.status = 0 → s.rkv = true → s.ops.inLen.toNat > s.params.maxLen.toNat →
      ∃ t, Sys2Proof.Machine.exec .frmDEcb s = .next t ∧ s.raised (.size s.ops.inLen) t) ∧
    (s.status = 0 → s.rkv = true → s.ops.inLen.toNat ≤ s.params.maxLen.toNat →
      s.ops.inLen.toNat < 8 ∨ (s.ops.inLen.toNat - 8) % 8 ≠ 0 →
      ∃ t, Sys2Proof.Machine.exec .frmDEcb s = .next t ∧ s.raised (.alignment s.ops.inLen) t) ∧
    ∀ (n : Nat) (c : Nat → Block) (hdr : Block), s.status = 0 → s.rkv = true →
      s.ops.inLen.toNat = 8 * (n + 1) → s.ops.inLen.toNat ≤ s.params.maxLen.toNat →
      (∀ j, j ≤ n → memRead s.ops.inBuf (8 * j) 8 = some (c j)) →
      hdr = transform (c 0) s.rk .decrypt →
      (headerLength hdr > 8 * n ∨ 8 * n - headerLength hdr ≥ 8 →
        ∃ t, Sys2Proof.Machine.exec .frmDEcb s = .next t ∧ s.raised (.format hdr) t) ∧
      (headerLength hdr ≤ 8 * n → 8 * n - headerLength hdr < 8 →
        ∃ t, Sys2Proof.Machine.exec .frmDEcb s = .next t ∧ t.arch = s.arch ∧ t.dout = none ∧
          t.outLen = headerLength hdr ∧ Memory.dense t.out t.outLen ∧
          ∀ a, a < headerLength hdr →
            byteAt t.out a =
              some ((transform (c (a / 8 + 1)) s.rk .decrypt).extractLsb' (56 - 8 * (a % 8)) 8))

/-- R109: FRM.D.CBC, as R108 with the header and every block XORed with the ciphertext block before it (the IV for
the header); it does not look at PREVV, and PREV ends as the last ciphertext block. -/
def Obligations.FrameDecryptCbc : Prop :=
  encode .frmDCbc = 0x13 ∧ ∀ s : State,
    (s.status ≠ 0 → Sys2Proof.Machine.exec .frmDCbc s = .fault (.faulted s.status)) ∧
    (s.status = 0 → s.rkv = false → ∃ t, Sys2Proof.Machine.exec .frmDCbc s = .next t ∧ s.raised .keyNotLoaded t) ∧
    (s.status = 0 → s.rkv = true → s.ops.inLen.toNat > s.params.maxLen.toNat →
      ∃ t, Sys2Proof.Machine.exec .frmDCbc s = .next t ∧ s.raised (.size s.ops.inLen) t) ∧
    (s.status = 0 → s.rkv = true → s.ops.inLen.toNat ≤ s.params.maxLen.toNat →
      s.ops.inLen.toNat < 8 ∨ (s.ops.inLen.toNat - 8) % 8 ≠ 0 →
      ∃ t, Sys2Proof.Machine.exec .frmDCbc s = .next t ∧ s.raised (.alignment s.ops.inLen) t) ∧
    ∀ (n : Nat) (c : Nat → Block) (hdr : Block), s.status = 0 → s.rkv = true →
      s.ops.inLen.toNat = 8 * (n + 1) → s.ops.inLen.toNat ≤ s.params.maxLen.toNat →
      (∀ j, j ≤ n → memRead s.ops.inBuf (8 * j) 8 = some (c j)) →
      hdr = transform (c 0) s.rk .decrypt ^^^ s.params.iv →
      (headerLength hdr > 8 * n ∨ 8 * n - headerLength hdr ≥ 8 →
        ∃ t, Sys2Proof.Machine.exec .frmDCbc s = .next t ∧ s.raised (.format hdr) t) ∧
      (headerLength hdr ≤ 8 * n → 8 * n - headerLength hdr < 8 →
        ∃ t, Sys2Proof.Machine.exec .frmDCbc s = .next t ∧ t.arch = { s.arch with prev := c n, prevv := true } ∧ t.dout = none ∧
          t.outLen = headerLength hdr ∧ Memory.dense t.out t.outLen ∧
          ∀ a, a < headerLength hdr →
            byteAt t.out a =
              some ((transform (c (a / 8 + 1)) s.rk .decrypt ^^^ c (a / 8)).extractLsb' (56 - 8 * (a % 8)) 8))

/-- R110 points 1, 2, 3, 5, 6: for every plaintext whose ciphertext is within MAXLEN (at MAXLEN's default, of at most
2^31 − 16 bytes), every draw and either mode, the FRM.D command on the OUT of the FRM.E command under the same RK
returns the plaintext byte for byte; no other operand of the second command matters. -/
def Obligations.FrameRoundTrip : Prop :=
  (∀ (s : State) (mode : Mode) (o : Operands), s.status = 0 → s.rkv = true → Operands.wf s.params s.ops →
    8 * ((s.ops.inLen.toNat + 7) / 8 + 1) ≤ s.params.maxLen.toNat →
    ∃ t u, Sys2Proof.Machine.exec (frameCommand .encrypt mode) s = .next t ∧
      t.outLen = 8 * ((s.ops.inLen.toNat + 7) / 8 + 1) ∧
      Sys2Proof.Machine.exec (frameCommand .decrypt mode)
        { t with ops := { o with inBuf := t.out, inLen := BitVec.ofNat 64 t.outLen } } = .next u ∧
      u.status = 0 ∧ u.out = s.ops.inBuf ∧ u.outLen = s.ops.inLen.toNat) ∧
  ∀ N, 8 * ((N + 7) / 8 + 1) ≤ Config.defaults.maxLen.toNat ↔ N ≤ 2 ^ 31 - 16

/-- R97, R94 (92_eei_decisions.md D13): FRM.E.CBC is CBC.INIT and then one CBC.E for the header and for each data
block: the same ciphertext blocks, the same PREV and PREVV at the end. -/
def Obligations.CbcFrameEncryptionIsItsEngineSteps : Prop :=
  ∀ s : State, s.status = 0 → s.rkv = true → Operands.wf s.params s.ops → s.ops.inLen.toNat ≤ s.params.maxLen.toNat →
    ∃ bs t s0 cs u, dataBlocks s 1 ((s.ops.inLen.toNat + 7) / 8) = some bs ∧
      Sys2Proof.Machine.exec .frmECbc s = .next t ∧
      Sys2Proof.Machine.exec .cbcInit s = .next s0 ∧
      issueBlocks .cbcE ((s.ops.rand32 ++ BitVec.ofNat 32 s.ops.inLen.toNat) :: bs) s0 = some (cs, u) ∧
      t.prev = u.prev ∧ t.prevv = u.prevv ∧ t.outLen = 8 * cs.length ∧
      ∀ j, j < cs.length → memRead t.out (8 * j) 8 = cs[j]?

/-- R102 corner case: in ECB another rand32 changes the first block of OUT and no byte from offset 8 on. -/
def Obligations.EcbFrameRandomHalfStaysInTheHeader : Prop :=
  ∀ (s t u : State) (r : BitVec 32),
    Sys2Proof.Machine.exec .frmEEcb s = .next t →
    Sys2Proof.Machine.exec .frmEEcb { s with ops := { s.ops with rand32 := r } } = .next u →
    t.outLen = u.outLen ∧ (∀ a, 8 ≤ a → byteAt t.out a = byteAt u.out a) ∧
    (t.status = 0 → r ≠ s.ops.rand32 → memRead t.out 0 8 ≠ memRead u.out 0 8)

/-- R103 corner case: in CBC another rand32 changes every block of OUT, and PREV with the last of them. -/
def Obligations.CbcFrameRandomHalfReachesEveryBlock : Prop :=
  ∀ (s t u : State) (r : BitVec 32),
    Sys2Proof.Machine.exec .frmECbc s = .next t →
    Sys2Proof.Machine.exec .frmECbc { s with ops := { s.ops with rand32 := r } } = .next u →
    t.status = 0 → r ≠ s.ops.rand32 →
    t.outLen = u.outLen ∧ t.prev ≠ u.prev ∧
    ∀ j, 8 * j < t.outLen → memRead t.out (8 * j) 8 ≠ memRead u.out (8 * j) 8

/-! ## Faults -/

/-- R12, R115 test 3: every command that reads RK raises KeyNotLoaded while RKV = 0, before any other test, and KSCHED
and CBC.INIT do not need a key. -/
def Obligations.KeyNotLoadedFault : Prop :=
  ∀ (i : Instr) (s : State), s.status = 0 → s.rkv = false →
    (i.readsKey = true → ∃ t, Sys2Proof.Machine.exec i s = .next t ∧ t.status = 8 ∧ s.raised .keyNotLoaded t) ∧
    (i.readsKey = false → ∃ t, Sys2Proof.Machine.exec i s = .next t ∧ t.status = 0)

/-- R101: an FRM command whose IN_LEN exceeds MAXLEN raises Size, whatever IN holds and whatever the alignment. -/
def Obligations.SizeFault : Prop :=
  ∀ (i : Instr) (s : State), i.isFrame = true → s.status = 0 → s.rkv = true →
    s.ops.inLen.toNat > s.params.maxLen.toNat →
    ∃ t, Sys2Proof.Machine.exec i s = .next t ∧ t.status = 5 ∧ s.raised (.size s.ops.inLen) t

/-- R104: an FRM.D command whose IN_LEN is within the cap raises Alignment exactly when IN_LEN is not 8 · (n + 1),
whatever IN holds. -/
def Obligations.AlignmentFault : Prop :=
  ∀ (mode : Mode) (s : State), s.status = 0 → s.rkv = true → s.ops.inLen.toNat ≤ s.params.maxLen.toNat →
    ((∀ n, s.ops.inLen.toNat ≠ 8 * (n + 1)) →
      ∃ t, Sys2Proof.Machine.exec (frameCommand .decrypt mode) s = .next t ∧ t.status = 6 ∧
        s.raised (.alignment s.ops.inLen) t) ∧
    (∀ n, s.ops.inLen.toNat = 8 * (n + 1) → ∀ t, Sys2Proof.Machine.exec (frameCommand .decrypt mode) s = .next t →
      t.status ≠ 6)

/-- R106: an FRM.D command whose recovered length, unsigned, exceeds the payload, or is 8 or more below it, raises
Format with the recovered header, whatever the data blocks are; PREV and PREVV keep their values. -/
def Obligations.FormatFault : Prop :=
  ∀ (mode : Mode) (s : State) (n : Nat) (c0 hdr : Block), s.status = 0 → s.rkv = true →
    s.ops.inLen.toNat ≤ s.params.maxLen.toNat → s.ops.inLen.toNat = 8 * (n + 1) → memRead s.ops.inBuf 0 8 = some c0 →
    hdr = (match mode with
      | .ecb => transform c0 s.rk .decrypt
      | .cbc => transform c0 s.rk .decrypt ^^^ s.params.iv) →
    (hdr.toNat % 2 ^ 32 > 8 * n ∨ 8 * n - hdr.toNat % 2 ^ 32 ≥ 8) →
    ∃ t, Sys2Proof.Machine.exec (frameCommand .decrypt mode) s = .next t ∧ t.status = 7 ∧ s.raised (.format hdr) t

/-- R116: a command that ends with STATUS ≠ 0 has changed no register but STATUS, which holds the code of the cause,
and shows no DOUT and an empty OUT. -/
def Obligations.FaultEntryIsPrecise : Prop :=
  ∀ (i : Instr) (s t : State), Sys2Proof.Machine.exec i s = .next t → t.status ≠ 0 → ∃ x, s.raised x t

/-! ## The whole machine -/

/-- R11, R12: no command but KSCHED writes RK or RKV. -/
def Obligations.OnlyKschedWritesRoundKeys : Prop :=
  ∀ (i : Instr) (s t : State), Sys2Proof.Machine.exec i s = .next t → i ≠ .ksched →
    t.rk = s.rk ∧ t.rkv = s.rkv

/-- R13: no command but CBC.INIT, CBC.E, CBC.D, FRM.E.CBC and FRM.D.CBC writes PREV or PREVV. -/
def Obligations.OnlyCbcCommandsWriteTheChain : Prop :=
  ∀ (i : Instr) (s t : State), Sys2Proof.Machine.exec i s = .next t →
    i ∉ [.cbcInit, .cbcE, .cbcD, .frmECbc, .frmDCbc] → t.prev = s.prev ∧ t.prevv = s.prevv

/-- R12, R14: nothing clears RKV or PREVV but reset, and a step that changes PREV leaves PREVV = 1. -/
def Obligations.ValidFlagsStaySet : Prop :=
  ∀ s t : State, step s = .next t → (∀ rest, s.host ≠ .reset :: rest) →
    (s.rkv = true → t.rkv = true) ∧ (s.prevv = true → t.prevv = true) ∧ (t.prev ≠ s.prev → t.prevv = true)

/-- R12, R14, R23: what RK holds while RKV = 0, and PREV while PREVV = 0, bears on no command: with other contents
every command answers the same, so nothing rests on the values of log 3. The contents stay where the command does not
write them. An FRM CBC command and CBC.INIT do not read PREV whatever PREVV is: the FRM CBC command ends in the very
same state where it completes (STATUS = 0), having written PREV, and leaves the other contents in PREV where it raises
a fault. -/
def Obligations.UnwrittenRegistersAreNotRead : Prop :=
  ∀ (i : Instr) (s : State) (k : Schedule) (v : Block),
    (s.rkv = false → i ≠ .ksched →
      Sys2Proof.Machine.exec i { s with rk := k } =
        mapNext (fun t => { t with rk := k }) (Sys2Proof.Machine.exec i s)) ∧
    (Sys2Proof.Machine.exec .ksched { s with rk := k } = Sys2Proof.Machine.exec .ksched s) ∧
    (s.prevv = false → i ∉ [.cbcInit, .frmECbc, .frmDCbc] →
      Sys2Proof.Machine.exec i { s with prev := v } =
        mapNext (fun t => { t with prev := v }) (Sys2Proof.Machine.exec i s)) ∧
    (Sys2Proof.Machine.exec .cbcInit { s with prev := v } = Sys2Proof.Machine.exec .cbcInit s) ∧
    (i ∈ [.frmECbc, .frmDCbc] →
      Sys2Proof.Machine.exec i { s with prev := v } =
        mapNext (fun t => if t.status = 0 then t else { t with prev := v }) (Sys2Proof.Machine.exec i s))

/-- R13, R24: the ECB commands, BLK.E, BLK.D and KSCHED neither read nor write PREV and PREVV: with another chain
state they answer the same, and that chain state is still there. -/
def Obligations.EcbCommandsIgnoreTheChain : Prop :=
  ∀ (i : Instr) (s : State) (prev : Block) (prevv : Bool),
    i ∈ [.ksched, .blkE, .blkD, .ecbE, .ecbD, .frmEEcb, .frmDEcb] →
    Sys2Proof.Machine.exec i { s with prev := prev, prevv := prevv } =
      mapNext (fun t => { t with prev := prev, prevv := prevv }) (Sys2Proof.Machine.exec i s)

/-- R22: no command but FRM.E.ECB and FRM.E.CBC draws: with other draws on the port (the model's
field, log 2) every other command answers the same. -/
def Obligations.OnlyFrameEncryptionDraws : Prop :=
  ∀ (i : Instr) (s : State) (r : BitVec 32) (pad : Vector Byte 7), i ∉ [.frmEEcb, .frmECbc] →
    Sys2Proof.Machine.exec i { s with ops := { s.ops with rand32 := r, pad := pad } } =
      mapNext (fun t => { t with ops := { t.ops with rand32 := r, pad := pad } }) (Sys2Proof.Machine.exec i s)

/-- R24, R25, R34 (that OUT stays where a command does not touch it is log 6): a command leaves the host's events and
operands alone; one that completes and is no FRM command leaves every byte of OUT alone; an FRM command that
completes leaves exactly the bytes at offsets 0 … OUT_LEN − 1, all of them its own. -/
def Obligations.CommandsLeaveOtherBytesAlone : Prop :=
  ∀ (i : Instr) (s t : State), Sys2Proof.Machine.exec i s = .next t →
    t.host = s.host ∧ t.ops = s.ops ∧
    (t.status = 0 → i.isFrame = false → t.outLen = s.outLen ∧ ∀ a, byteAt t.out a = byteAt s.out a) ∧
    (t.status = 0 → i.isFrame = true → ∀ a, (byteAt t.out a).isSome = true ↔ a < t.outLen)

/-- R26, R31 (that such an IN is refused at all is log 5): on operands whose IN holds exactly IN_LEN bytes no command is refused, and a step from a state whose
host side is well-formed is never refused and keeps it so. -/
def Obligations.NoRefusalOnWellFormedOperands : Prop :=
  (∀ (i : Instr) (s : State) (r : Refusal), Operands.wf s.params s.ops → Sys2Proof.Machine.exec i s ≠ .refused r) ∧
  ∀ s : State, s.hostWf → (∀ r, step s ≠ .refused r) ∧ ∀ t, step s = .next t → t.hostWf

/-- The invariant, and a well-formed host side, in the reset state. STATUS = 0 there is R23's. The rest is the model's
choice: the host's list of events is empty (log 1); OUT is empty with OUT_LEN = 0, and the idle operand port holds an
empty IN (log 2); no cause is recorded (log 4). -/
def Obligations.InvariantHoldsAtReset : Prop := State.reset.Inv ∧ State.reset.hostWf

/-- R15, R113, R114, R116, R27, R32: every step from any state that meets the invariant gives a state that meets it:
STATUS holds a legal code, the code of the cause shown to the host (the model's field, log 4); a FAULTED CORE shows no result; OUT holds exactly
the bytes at offsets 0 … OUT_LEN − 1. -/
def Obligations.EveryStepKeepsTheInvariant : Prop :=
  ∀ s t : State, s.Inv → step s = .next t → t.Inv
end

