-- ==== Sys2Proof/Laws/Bits.lean ====
section
/-! SUPPORT. What the bit primitives, the key schedule loop and the Feistel round do (spec 40_bit_primitives.md,
42_key_schedule.md, 43_block_transform.md). -/

namespace Sys2Proof.Machine

/-- The number that a table selects from an input, first entry most significant. -/
def selected {w : Nat} (input : BitVec w) (table : List Nat) : Nat :=
  table.foldl (fun acc t => 2 * acc + (input.getLsbD (w - t)).toNat) 0

theorem permute_eq {w : Nat} (n : Nat) (table : List Nat) (input : BitVec w) :
    permute n table input = BitVec.ofNat n (selected input table) := rfl

theorem selected_concat {w : Nat} (input : BitVec w) (table : List Nat) (t : Nat) :
    selected input (table ++ [t]) = 2 * selected input table + (input.getLsbD (w - t)).toNat := by
  simp [selected, List.foldl_append]

/-- Bit i of a selection is the input bit that the i-th entry from the end names. -/
theorem selected_testBit {w : Nat} (input : BitVec w) (table : List Nat) (i : Nat) :
    (selected input table).testBit i =
      (decide (i < table.length) && input.getLsbD (w - table.getD (table.length - 1 - i) 0)) := by
  induction table using List.reverseRecOn generalizing i with
  | nil => simp [selected]
  | append_singleton l t ih =>
    rw [selected_concat]
    cases i with
    | zero =>
      rw [Nat.testBit_zero]
      simp only [List.length_append, List.length_singleton, Nat.add_sub_cancel, Nat.sub_zero]
      rw [List.getD_append_right _ _ _ _ (Nat.le_refl _)]
      cases h : input.getLsbD (w - t) <;> simp [Nat.add_mod, h]
    | succ i =>
      rw [Nat.testBit_succ, show (2 * selected input l + (input.getLsbD (w - t)).toNat) / 2 = selected input l by
        have := Bool.toNat_lt (input.getLsbD (w - t)); omega, ih]
      by_cases h : i < l.length
      · simp only [List.length_append, List.length_singleton]
        rw [show l.length + 1 - 1 - (i + 1) = l.length - 1 - i by omega, List.getD_append _ _ _ _ (by omega)]
        simp [h]
      · simp [h]

/-- Outside its table a permutation has no bits; inside, bit i is the bit its entry names (R56). -/
theorem permute_getLsbD {w n : Nat} (table : List Nat) (input : BitVec w) (i : Nat) :
    (permute n table input).getLsbD i =
      (decide (i < n) && (decide (i < table.length) &&
        input.getLsbD (w - table.getD (table.length - 1 - i) 0))) := by
  rw [permute_eq, BitVec.getLsbD_ofNat, selected_testBit]

theorem join56_split56 (v : BitVec 56) : join56 (split56 v).1 (split56 v).2 = v := by
  unfold join56 split56
  rw [BitVec.extractLsb'_append_extractLsb'_eq_extractLsb' (by rfl)]
  simp

theorem join64_split64 (v : Block) : join64 (split64 v).1 (split64 v).2 = v := by
  unfold join64 split64
  rw [BitVec.extractLsb'_append_extractLsb'_eq_extractLsb' (by rfl)]
  simp

theorem split56_join56 (l r : KeyHalf) : split56 (join56 l r) = (l, r) :=
  Prod.ext BitVec.extractLsb'_append_eq_left BitVec.extractLsb'_append_eq_right

theorem split64_join64 (l r : Half) : split64 (join64 l r) = (l, r) :=
  Prod.ext BitVec.extractLsb'_append_eq_left BitVec.extractLsb'_append_eq_right

/-- One round is undone by a round with the same key on the swapped halves. -/
theorem feistelRound_undone (l r : Half) (k : RoundKey) :
    feistelRound ((feistelRound (l, r) k).2, (feistelRound (l, r) k).1) k = (r, l) := by
  simp [feistelRound]

/-- The round keys in the order of decryption are those of encryption reversed. -/
theorem keyOrder_decrypt (rk : Schedule) : keyOrder rk .decrypt = (keyOrder rk .encrypt).reverse := rfl

theorem roundKeysFrom_getElem? (c d : KeyHalf) (ns : List Nat) (i : Nat) (h : i < ns.length) :
    (roundKeysFrom c d ns)[i]? =
      some (permute 48 tablePC2 (join56 ((ns.take (i + 1)).foldl rotL28 c) ((ns.take (i + 1)).foldl rotL28 d))) := by
  induction ns generalizing c d i with
  | nil => simp at h
  | cons n ns ih =>
    cases i with
    | zero => simp [roundKeysFrom]
    | succ i => simp only [List.length_cons] at h; simp [roundKeysFrom, ih _ _ i (by omega)]

end Sys2Proof.Machine
end

