-- ==== Sys2Proof/Laws/Buffers.lean ====
section
/-! SUPPORT. What the buffer operations do: a read after a write, the canonical form, dense buffers, and the
big-endian reading of bytes (spec 20_memory.md R29, R31, R32). -/

namespace Sys2Proof.Machine

/-! ## One byte -/

theorem byteAt_storeByte (m : Memory) (a x : Nat) (v : Byte) :
    byteAt (storeByte m a v) x = if x = a then some v else byteAt m x := by
  induction m with
  | nil => simp [storeByte, byteAt]
  | cons c m ih =>
    obtain ⟨y, b⟩ := c
    by_cases h1 : a < y
    · simp [storeByte, byteAt, h1]
    · by_cases h2 : a = y
      · subst h2; simp only [storeByte, byteAt, Nat.lt_irrefl, if_true, if_false]; split <;> rfl
      · simp [storeByte, byteAt, h1, h2, ih]; grind

theorem mem_keys_storeByte {m : Memory} {a x : Nat} {v : Byte}
    (h : x ∈ (storeByte m a v).map Prod.fst) : x = a ∨ x ∈ m.map Prod.fst := by
  induction m with
  | nil => simpa [storeByte] using h
  | cons c m ih =>
    obtain ⟨y, b⟩ := c
    simp only [storeByte] at h
    split at h
    · simpa using h
    · split at h
      · rename_i h2; subst h2; simp at h ⊢; grind
      · simp only [List.map_cons, List.mem_cons] at h ⊢
        rcases h with h | h
        · exact .inr (.inl h)
        · exact (ih h).imp_right .inr

theorem storeByte_wf {m : Memory} (a : Nat) (v : Byte) (h : Memory.wf m) : Memory.wf (storeByte m a v) := by
  induction m with
  | nil => simp [storeByte, Memory.wf]
  | cons c m ih =>
    obtain ⟨y, b⟩ := c
    simp only [Memory.wf, List.map_cons, List.pairwise_cons] at h ih
    simp only [storeByte]
    split
    · simp only [Memory.wf, List.map_cons, List.pairwise_cons, List.mem_cons]
      grind
    · split
      · rename_i h2; subst h2
        simpa only [Memory.wf, List.map_cons, List.pairwise_cons] using h
      · simp only [Memory.wf, List.map_cons, List.pairwise_cons]
        refine ⟨fun x hx => ?_, ih h.2⟩
        rcases mem_keys_storeByte hx with rfl | hx
        · grind
        · exact h.1 x hx

theorem writeBytes_wf {m : Memory} (a : Nat) (bs : List Byte) (h : Memory.wf m) : Memory.wf (writeBytes m a bs) := by
  induction bs generalizing m a with
  | nil => exact h
  | cons b bs ih => exact ih _ (storeByte_wf a b h)

/-- MemWrite keeps the canonical form. -/
theorem memWrite_wf {m : Memory} (a n : Nat) (v : Block) (h : Memory.wf m) : Memory.wf (memWrite m a n v) :=
  writeBytes_wf a _ h

/-- A write above every listed offset goes to the end. -/
theorem storeByte_of_above {m : Memory} {a : Nat} (v : Byte) (h : ∀ x ∈ m.map Prod.fst, x < a) :
    storeByte m a v = m ++ [(a, v)] := by
  induction m with
  | nil => rfl
  | cons c m ih =>
    obtain ⟨y, b⟩ := c
    simp only [List.map_cons, List.mem_cons] at h
    have hy := h y (.inl rfl)
    have h1 : ¬ a < y := by omega
    have h2 : ¬ a = y := by omega
    simp [storeByte, h1, h2, ih (fun x hx => h x (.inr hx))]

/-! ## Dense buffers -/

theorem dense_wf {m : Memory} {n : Nat} (h : Memory.dense m n) : Memory.wf m := by
  rw [Memory.wf, h]; exact List.pairwise_lt_range

theorem dense_length {m : Memory} {n : Nat} (h : Memory.dense m n) : m.length = n := by
  simpa using congrArg List.length h

theorem dense_storeByte {m : Memory} {n : Nat} (v : Byte) (h : Memory.dense m n) :
    Memory.dense (storeByte m n v) (n + 1) := by
  have h' : ∀ x ∈ m.map Prod.fst, x < n := by rw [h]; simp
  simp only [Memory.dense] at h ⊢
  rw [storeByte_of_above v h', List.map_append, h, List.range_succ]
  rfl

theorem dense_writeBytes {m : Memory} {n : Nat} (bs : List Byte) (h : Memory.dense m n) :
    Memory.dense (writeBytes m n bs) (n + bs.length) := by
  induction bs generalizing m n with
  | nil => simpa [writeBytes] using h
  | cons b bs ih =>
    have := ih (dense_storeByte b h)
    rw [List.length_cons, show n + (bs.length + 1) = n + 1 + bs.length by omega]
    exact this

theorem beBytes_length (n : Nat) (v : Block) : (beBytes n v).length = n := by simp [beBytes]

/-- MemWrite at the end of a dense buffer gives a dense buffer, n bytes longer. -/
theorem dense_memWrite {m : Memory} {a : Nat} (n : Nat) (v : Block) (h : Memory.dense m a) :
    Memory.dense (memWrite m a n v) (a + n) := by
  have := dense_writeBytes (beBytes n v) h
  rwa [beBytes_length] at this

theorem byteAt_isSome (m : Memory) (x : Nat) : (byteAt m x).isSome = true ↔ x ∈ m.map Prod.fst := by
  induction m with
  | nil => simp [byteAt]
  | cons c m ih =>
    obtain ⟨y, b⟩ := c
    by_cases h : x = y
    · simp [byteAt, h]
    · rw [byteAt, if_neg h, ih]
      simp only [List.map_cons, List.mem_cons, h, false_or]

/-- A dense buffer holds exactly the offsets below its length. -/
theorem dense_byteAt_isSome {m : Memory} {n : Nat} (h : Memory.dense m n) (x : Nat) :
    (byteAt m x).isSome = true ↔ x < n := by
  rw [byteAt_isSome, h, List.mem_range]

/-- Two canonical buffers with the same bytes are the same list. -/
theorem wf_ext {m m' : Memory} (hm : Memory.wf m) (hm' : Memory.wf m')
    (h : ∀ x, byteAt m x = byteAt m' x) : m = m' := by
  induction m generalizing m' with
  | nil =>
    cases m' with
    | nil => rfl
    | cons c m' => obtain ⟨y, b⟩ := c; have := h y; simp [byteAt] at this
  | cons c m ih =>
    obtain ⟨y, b⟩ := c
    cases m' with
    | nil => have := h y; simp [byteAt] at this
    | cons c' m' =>
      obtain ⟨z, b'⟩ := c'
      simp only [Memory.wf, List.map_cons, List.pairwise_cons] at hm hm'
      have key : ∀ (q : Memory) (u x : Nat), (∀ k ∈ q.map Prod.fst, u < k) → x ≤ u → byteAt q x = none := by
        intro q u x hq hx
        rw [← Option.not_isSome_iff_eq_none, byteAt_isSome]
        intro hmem; have := hq x hmem; omega
      have hyz : y = z := by
        rcases Nat.lt_trichotomy y z with hlt | heq | hlt
        · have := h y
          rw [byteAt, if_pos rfl, byteAt, if_neg (by omega), key m' z y hm'.1 (by omega)] at this
          simp at this
        · exact heq
        · have := h z
          rw [byteAt, if_neg (by omega), byteAt, if_pos rfl, key m y z hm.1 (by omega)] at this
          simp at this
      subst hyz
      have hb : b = b' := by have := h y; simpa [byteAt] using this
      subst hb
      refine congrArg _ (ih hm.2 hm'.2 fun x => ?_)
      by_cases hx : x = y
      · subst hx
        rw [key m x x hm.1 (Nat.le_refl _), key m' x x hm'.1 (Nat.le_refl _)]
      · have := h x
        rwa [byteAt, if_neg hx, byteAt, if_neg hx] at this

/-! ## Several bytes -/

theorem byteAt_writeBytes (m : Memory) (a x : Nat) (bs : List Byte) :
    byteAt (writeBytes m a bs) x =
      if a ≤ x ∧ x < a + bs.length then bs[x - a]? else byteAt m x := by
  induction bs generalizing m a with
  | nil => simp [writeBytes]
  | cons b bs ih =>
    rw [writeBytes, ih, byteAt_storeByte]
    rcases Nat.lt_trichotomy x a with h | h | h
    · rw [if_neg (by omega), if_neg (by omega), if_neg (by omega)]
    · subst h; rw [if_neg (by omega), if_pos rfl, if_pos (by simp)]; simp
    · by_cases h2 : x < a + 1 + bs.length
      · rw [if_pos (by omega), if_pos (by simp; omega), show x - a = (x - (a + 1)) + 1 by omega]
        simp
      · rw [if_neg (by omega), if_neg (by omega), if_neg (by simp; omega)]

/-- readBytes answers exactly the bytes at the n offsets from a. -/
theorem readBytes_eq_some (m : Memory) (a n : Nat) (bs : List Byte) :
    readBytes m a n = some bs ↔ bs.length = n ∧ ∀ i, i < n → byteAt m (a + i) = bs[i]? := by
  induction n generalizing a bs with
  | zero =>
    simp only [readBytes, Option.some.injEq, Nat.not_lt_zero, false_implies, implies_true, and_true]
    rw [List.length_eq_zero_iff]; exact eq_comm
  | succ n ih =>
    rw [readBytes]
    cases hb : byteAt m a with
    | none =>
      simp only [reduceCtorEq, false_iff]
      rintro ⟨hl, h⟩
      have := h 0 (by omega)
      rw [Nat.add_zero, hb] at this
      have := List.getElem?_eq_none_iff.mp this.symm
      omega
    | some b =>
      simp only [Option.map_eq_some_iff]
      constructor
      · rintro ⟨bs', h, rfl⟩
        obtain ⟨hl, hr⟩ := (ih (a + 1) bs').mp h
        refine ⟨by simp [hl], fun i hi => ?_⟩
        cases i with
        | zero => simpa using hb
        | succ i =>
          have := hr i (by omega)
          rw [show a + (i + 1) = a + 1 + i by omega, this]; simp
      · rintro ⟨hl, h⟩
        cases bs with
        | nil => simp at hl
        | cons c bs' =>
          have h0 := h 0 (by omega)
          rw [Nat.add_zero, hb] at h0
          simp only [List.getElem?_cons_zero, Option.some.injEq] at h0
          subst h0
          refine ⟨bs', (ih (a + 1) bs').mpr ⟨by simpa using hl, fun i hi => ?_⟩, rfl⟩
          have := h (i + 1) (by omega)
          rw [show a + 1 + i = a + (i + 1) by omega, this]; simp

/-- Reading offsets that all exist succeeds. -/
theorem readBytes_isSome {m : Memory} {a n : Nat} (h : ∀ i, i < n → (byteAt m (a + i)).isSome = true) :
    ∃ bs, readBytes m a n = some bs := by
  induction n generalizing a with
  | zero => exact ⟨[], rfl⟩
  | succ n ih =>
    have h0 := h 0 (by omega)
    obtain ⟨b, hb⟩ := Option.isSome_iff_exists.mp h0
    rw [Nat.add_zero] at hb
    obtain ⟨bs, hbs⟩ := ih (a := a + 1) fun i hi => by
      have := h (i + 1) (by omega)
      rwa [show a + (i + 1) = a + 1 + i by omega] at this
    exact ⟨b :: bs, by simp [readBytes, hb, hbs]⟩

theorem readBytes_congr {m m' : Memory} {a n : Nat} (h : ∀ i, i < n → byteAt m (a + i) = byteAt m' (a + i)) :
    readBytes m a n = readBytes m' a n := by
  induction n generalizing a with
  | zero => rfl
  | succ n ih =>
    have h0 := h 0 (by omega)
    rw [Nat.add_zero] at h0
    rw [readBytes, readBytes, h0, ih (a := a + 1) fun i hi => by
      rw [show a + 1 + i = a + (i + 1) by omega]; exact h (i + 1) (by omega)]

theorem readBytes_writeBytes (m : Memory) (a : Nat) (bs : List Byte) :
    readBytes (writeBytes m a bs) a bs.length = some bs :=
  (readBytes_eq_some _ _ _ _).mpr ⟨rfl, fun i hi => by
    rw [byteAt_writeBytes, if_pos (by omega)]; simp⟩

/-! ## Big-endian values -/

/-- The number that bytes spell, the first most significant. -/
def spell (bs : List Byte) : Nat := bs.foldl (fun acc b => 256 * acc + b.toNat) 0

theorem beValue_eq (bs : List Byte) : beValue bs = BitVec.ofNat 64 (spell bs) := rfl

theorem spell_concat (bs : List Byte) (b : Byte) : spell (bs ++ [b]) = 256 * spell bs + b.toNat := by
  simp [spell, List.foldl_append]

theorem spell_lt (bs : List Byte) : spell bs < 256 ^ bs.length := by
  induction bs using List.reverseRecOn with
  | nil => simp [spell]
  | append_singleton bs b ih =>
    rw [spell_concat, List.length_append, List.length_singleton, Nat.pow_succ]
    have := b.isLt
    omega

theorem beBytes_succ (n : Nat) (v : Block) :
    beBytes (n + 1) v = beBytes n (v >>> 8) ++ [v.extractLsb' 0 8] := by
  rw [beBytes, List.range_succ, List.map_append, beBytes]
  congr 1
  · refine List.map_congr_left fun i hi => ?_
    rw [List.mem_range] at hi
    apply BitVec.eq_of_toNat_eq
    simp only [BitVec.extractLsb'_toNat, BitVec.toNat_ushiftRight, ← Nat.shiftRight_add]
    congr 2; omega
  · simp

theorem spell_beBytes (n : Nat) (v : Block) : spell (beBytes n v) = v.toNat % 256 ^ n := by
  induction n generalizing v with
  | zero => simp [beBytes, spell, Nat.mod_one]
  | succ n ih =>
    have h8 : (v >>> 8).toNat = v.toNat / 256 := by
      simp [BitVec.toNat_ushiftRight, Nat.shiftRight_eq_div_pow]
    have h0 : (v.extractLsb' 0 8).toNat = v.toNat % 256 := by simp [BitVec.extractLsb'_toNat]
    rw [beBytes_succ, spell_concat, ih, h8, h0, Nat.pow_succ, Nat.mul_comm (256 ^ n) 256, Nat.mod_mul]
    omega

/-- MemRead's reading of MemWrite's bytes. -/
theorem beValue_beBytes {n : Nat} {v : Block} (h : v.toNat < 2 ^ (8 * n)) : beValue (beBytes n v) = v := by
  apply BitVec.eq_of_toNat_eq
  rw [beValue_eq, spell_beBytes, BitVec.toNat_ofNat, Nat.mod_eq_of_lt (b := 256 ^ n),
    Nat.mod_eq_of_lt v.isLt]
  rwa [show (256 : Nat) = 2 ^ 8 by rfl, ← Nat.pow_mul]

/-- The bytes that a value of at most eight bytes was read from. -/
theorem beBytes_beValue {bs : List Byte} (h : bs.length ≤ 8) : beBytes bs.length (beValue bs) = bs := by
  have key : ∀ (bs : List Byte) (v : Block), v.toNat % 256 ^ bs.length = spell bs → beBytes bs.length v = bs := by
    intro bs
    induction bs using List.reverseRecOn with
    | nil => intro v _; rfl
    | append_singleton bs b ih =>
      intro v hv
      rw [spell_concat, List.length_append, List.length_singleton, Nat.pow_succ,
        Nat.mul_comm (256 ^ bs.length) 256, Nat.mod_mul] at hv
      have hb := b.isLt
      have h8 : (v >>> 8).toNat = v.toNat / 256 := by
        simp [BitVec.toNat_ushiftRight, Nat.shiftRight_eq_div_pow]
      have h0 : (v.extractLsb' 0 8).toNat = v.toNat % 256 := by simp [BitVec.extractLsb'_toNat]
      rw [List.length_append, List.length_singleton, beBytes_succ, ih (v >>> 8) (by rw [h8]; omega)]
      congr 2
      apply BitVec.eq_of_toNat_eq
      rw [h0]
      omega
  apply key
  rw [beValue_eq, BitVec.toNat_ofNat, Nat.mod_eq_of_lt (b := 2 ^ 64),
    Nat.mod_eq_of_lt (spell_lt bs)]
  calc spell bs < 256 ^ bs.length := spell_lt bs
    _ ≤ 256 ^ 8 := Nat.pow_le_pow_right (by omega) h

theorem beBytes_getElem? (n : Nat) (v : Block) (i : Nat) (h : i < n) :
    (beBytes n v)[i]? = some (v.extractLsb' (8 * (n - 1 - i)) 8) := by
  simp [beBytes, h]

/-- MemRead answers v exactly when the n bytes that spell v stand at a (n ≤ 8). -/
theorem memRead_eq_some {m : Memory} {a n : Nat} {v : Block} (hn : n ≤ 8) (hv : v.toNat < 2 ^ (8 * n)) :
    memRead m a n = some v ↔ ∀ i, i < n → byteAt m (a + i) = some (v.extractLsb' (8 * (n - 1 - i)) 8) := by
  rw [memRead, Option.map_eq_some_iff]
  constructor
  · rintro ⟨bs, h, rfl⟩
    obtain ⟨hl, hr⟩ := (readBytes_eq_some _ _ _ _).mp h
    intro i hi
    rw [hr i hi, ← beBytes_getElem? n _ i hi, ← hl, beBytes_beValue (hl ▸ hn)]
  · intro h
    refine ⟨beBytes n v, (readBytes_eq_some _ _ _ _).mpr ⟨beBytes_length n v, fun i hi => ?_⟩,
      beValue_beBytes hv⟩
    rw [h i hi, beBytes_getElem? n v i hi]

end Sys2Proof.Machine
end

