-- ==== Sys2Proof/Laws/Framing.lean ====
section
/-! SUPPORT. What the engine's run and the walks over IN and OUT do (spec 44_mode_engines.md R95,
45_framing_codec.md R99, R102, R107). -/

namespace Sys2Proof.Machine

/-! ## The engine's run -/

theorem runEngine_length (mode : Mode) (action : Action) (rk : Schedule) (prev : Block) (bs : List Block) :
    (runEngine mode action rk prev bs).1.length = bs.length := by
  induction bs generalizing prev with
  | nil => rfl
  | cons b bs ih => simp [runEngine, ih]

/-- ECB transforms each block alone. -/
theorem runEngine_ecb (action : Action) (rk : Schedule) (prev : Block) (bs : List Block) :
    (runEngine .ecb action rk prev bs).1 = bs.map (fun b => transform b rk action) := by
  induction bs generalizing prev with
  | nil => rfl
  | cons b bs ih => simp only [runEngine, ih]; rfl

/-! ## Walks over IN -/

theorem readBlocks_length {s : State} {a n : Nat} {cs : List Block} (h : readBlocks s a n = some cs) :
    cs.length = n := by
  induction n generalizing a cs with
  | zero => cases h; rfl
  | succ n ih =>
    rw [readBlocks] at h
    split at h
    · cases h
    · obtain ⟨bs, hb, rfl⟩ := Option.map_eq_some_iff.mp h
      simp [ih hb]

/-- readBlocks answers the blocks that MemRead gives at a, a + 8, …. -/
theorem readBlocks_eq_some (s : State) (a n : Nat) (cs : List Block) :
    readBlocks s a n = some cs ↔
      cs.length = n ∧ ∀ j, j < n → memRead s.ops.inBuf (a + 8 * j) 8 = cs[j]? := by
  induction n generalizing a cs with
  | zero =>
    simp only [readBlocks, Option.some.injEq, Nat.not_lt_zero, false_implies, implies_true, and_true]
    rw [List.length_eq_zero_iff]; exact eq_comm
  | succ n ih =>
    rw [readBlocks, opMemRead]
    cases hb : memRead s.ops.inBuf a 8 with
    | none =>
      simp only [reduceCtorEq, false_iff]
      rintro ⟨hl, h⟩
      have := h 0 (by omega)
      rw [Nat.mul_zero, Nat.add_zero, hb] at this
      have := List.getElem?_eq_none_iff.mp this.symm
      omega
    | some b =>
      simp only [Option.map_eq_some_iff]
      constructor
      · rintro ⟨bs', h, rfl⟩
        obtain ⟨hl, hr⟩ := (ih (a + 8) bs').mp h
        refine ⟨by simp [hl], fun j hj => ?_⟩
        cases j with
        | zero => simpa using hb
        | succ j =>
          have := hr j (by omega)
          rw [show a + 8 * (j + 1) = a + 8 + 8 * j by omega, this]; simp
      · rintro ⟨hl, h⟩
        cases cs with
        | nil => simp at hl
        | cons c cs =>
          have h0 := h 0 (by omega)
          rw [Nat.mul_zero, Nat.add_zero, hb] at h0
          simp only [List.getElem?_cons_zero, Option.some.injEq] at h0
          subst h0
          refine ⟨cs, (ih (a + 8) cs).mpr ⟨by simpa using hl, fun j hj => ?_⟩, rfl⟩
          have := h (j + 1) (by omega)
          rw [show a + 8 + 8 * j = a + 8 * (j + 1) by omega, this]; simp

/-- A data block whose eight bytes all lie in IN is MemRead (R99). -/
theorem dataBlock_of_full {s : State} {j : Nat} (h : 8 * (j - 1) + 8 ≤ s.ops.inLen.toNat) :
    dataBlock s j = memRead s.ops.inBuf (8 * (j - 1)) 8 := if_pos h

/-- A data block that runs past the end of IN is the tail bytes, then the first pad draws (R99). -/
theorem dataBlock_of_tail {s : State} {j : Nat} (h : ¬ 8 * (j - 1) + 8 ≤ s.ops.inLen.toNat) :
    dataBlock s j = (readBytes s.ops.inBuf (8 * (j - 1)) (s.ops.inLen.toNat - 8 * (j - 1))).map
      (fun tail => beValue (tail ++ s.ops.pad.toList.take (8 - (s.ops.inLen.toNat - 8 * (j - 1))))) := if_neg h

theorem dataBlocks_length {s : State} {j n : Nat} {bs : List Block} (h : dataBlocks s j n = some bs) :
    bs.length = n := by
  induction n generalizing j bs with
  | zero => cases h; rfl
  | succ n ih =>
    rw [dataBlocks] at h
    split at h
    · cases h
    · obtain ⟨bs', hb, rfl⟩ := Option.map_eq_some_iff.mp h
      simp [ih hb]

/-- dataBlocks answers the blocks that DataBlock gives for j, j + 1, …. -/
theorem dataBlocks_getElem? {s : State} {j n : Nat} {bs : List Block} (h : dataBlocks s j n = some bs)
    (u : Nat) (hu : u < n) : dataBlock s (j + u) = bs[u]? := by
  induction n generalizing j bs u with
  | zero => omega
  | succ n ih =>
    rw [dataBlocks] at h
    split at h
    · cases h
    · rename_i b hb
      obtain ⟨bs', hb', rfl⟩ := Option.map_eq_some_iff.mp h
      cases u with
      | zero => simpa using hb
      | succ u =>
        rw [show j + (u + 1) = j + 1 + u by omega, ih hb' u (by omega)]; simp

theorem dataBlocks_isSome {s : State} {j n : Nat} (h : ∀ u, u < n → ∃ b, dataBlock s (j + u) = some b) :
    ∃ bs, dataBlocks s j n = some bs := by
  induction n generalizing j with
  | zero => exact ⟨[], rfl⟩
  | succ n ih =>
    obtain ⟨b, hb⟩ := h 0 (by omega)
    obtain ⟨bs, hbs⟩ := ih (j := j + 1) fun u hu => by
      rw [show j + 1 + u = j + (u + 1) by omega]; exact h (u + 1) (by omega)
    rw [Nat.add_zero] at hb
    exact ⟨b :: bs, by rw [dataBlocks]; simp [hb, hbs]⟩

/-! ## Walks over OUT -/

/-- Blocks as bytes on the stream, big-endian (20_memory.md R29). -/
def streamBytes : List Block → List Byte
  | [] => []
  | v :: vs => beBytes 8 v ++ streamBytes vs

theorem streamBytes_length (vs : List Block) : (streamBytes vs).length = 8 * vs.length := by
  induction vs with
  | nil => rfl
  | cons v vs ih => simp [streamBytes, beBytes_length, ih]; omega

theorem writeBytes_append (m : Memory) (a : Nat) (bs cs : List Byte) :
    writeBytes m a (bs ++ cs) = writeBytes (writeBytes m a bs) (a + bs.length) cs := by
  induction bs generalizing m a with
  | nil => rfl
  | cons b bs ih =>
    rw [List.cons_append, writeBytes, writeBytes, ih, List.length_cons,
      show a + 1 + bs.length = a + (bs.length + 1) by omega]

/-- Writing blocks is writing their bytes one after the other. -/
theorem writeBlocks_eq (m : Memory) (a : Nat) (vs : List Block) :
    writeBlocks m a vs = writeBytes m a (streamBytes vs) := by
  induction vs generalizing m a with
  | nil => rfl
  | cons v vs ih => rw [writeBlocks, ih, streamBytes, writeBytes_append, beBytes_length]; rfl

/-- Dropping the low bytes of a value drops its last bytes on the stream. -/
theorem beBytes_ushiftRight (padding : Nat) (v : Block) (h : padding ≤ 8) :
    beBytes (8 - padding) (v >>> (8 * padding)) = (beBytes 8 v).take (8 - padding) := by
  apply List.ext_getElem?
  intro i
  by_cases hi : i < 8 - padding
  · rw [beBytes_getElem? _ _ _ hi, List.getElem?_take_of_lt hi, beBytes_getElem? _ _ _ (by omega)]
    congr 1
    apply BitVec.eq_of_toNat_eq
    simp only [BitVec.extractLsb'_toNat, BitVec.toNat_ushiftRight, ← Nat.shiftRight_add]
    congr 2; omega
  · rw [List.getElem?_eq_none (by rw [beBytes_length]; omega),
      List.getElem?_eq_none (by simp [beBytes_length]; omega)]

/-- Writing blocks with a truncated tail is writing all their bytes but the last padding ones (R107). -/
theorem writeTruncated_eq (m : Memory) (a padding : Nat) (vs : List Block) (h : padding ≤ 8) :
    writeTruncated m a padding vs = writeBytes m a ((streamBytes vs).take (8 * vs.length - padding)) := by
  induction vs generalizing m a with
  | nil => simp [writeTruncated, streamBytes, writeBytes]
  | cons v vs ih =>
    cases vs with
    | nil =>
      rw [writeTruncated, memWrite, beBytes_ushiftRight _ _ h]
      simp [streamBytes]
    | cons w vs =>
      have hl : 8 * (v :: w :: vs).length - padding = (beBytes 8 v).length + (8 * (w :: vs).length - padding) := by
        simp only [List.length_cons, beBytes_length]; omega
      rw [writeTruncated, ih, hl, streamBytes.eq_2 v, List.take_length_add_append, writeBytes_append, memWrite,
        beBytes_length]

/-- Byte a of a stream is byte a mod 8 of its block a / 8. -/
theorem streamBytes_getElem? (vs : List Block) (a : Nat) :
    (streamBytes vs)[a]? = (vs[a / 8]?).map (fun v => v.extractLsb' (56 - 8 * (a % 8)) 8) := by
  induction vs generalizing a with
  | nil => simp [streamBytes]
  | cons v vs ih =>
    rw [streamBytes]
    by_cases h : a < 8
    · rw [List.getElem?_append_left (by rw [beBytes_length]; exact h), beBytes_getElem? _ _ _ h,
        show a / 8 = 0 by omega, show a % 8 = a by omega]
      simp only [List.getElem?_cons_zero, Option.map_some]
      congr 2; omega
    · rw [List.getElem?_append_right (by rw [beBytes_length]; omega), beBytes_length, ih,
        show a / 8 = (a - 8) / 8 + 1 by omega, show (a - 8) % 8 = a % 8 by omega]
      simp

/-- Writing from offset 0 into an empty buffer gives a dense buffer. -/
theorem writeBytes_nil_dense (bs : List Byte) : Memory.dense (writeBytes [] 0 bs) bs.length := by
  have := dense_writeBytes (m := []) (n := 0) bs rfl
  rwa [Nat.zero_add] at this

theorem byteAt_writeBytes_nil (bs : List Byte) (x : Nat) : byteAt (writeBytes [] 0 bs) x = bs[x]? := by
  rw [byteAt_writeBytes]
  by_cases h : x < bs.length
  · rw [if_pos (by omega)]; rfl
  · rw [if_neg (by omega), List.getElem?_eq_none (by omega)]; rfl

/-- Block j of a stream, read back (R31). -/
theorem memRead_stream (vs : List Block) (j : Nat) (hj : j < vs.length) :
    memRead (writeBytes [] 0 (streamBytes vs)) (8 * j) 8 = vs[j]? := by
  obtain ⟨v, hv⟩ : ∃ v, vs[j]? = some v := ⟨vs[j], List.getElem?_eq_getElem hj⟩
  rw [hv]
  refine (memRead_eq_some (by omega) v.isLt).mpr fun i hi => ?_
  rw [byteAt_writeBytes_nil, streamBytes_getElem?, show (8 * j + i) / 8 = j by omega, hv,
    show (8 * j + i) % 8 = i by omega, Option.map_some]
  congr 2; omega

end Sys2Proof.Machine
end

