-- ==== Sys2Proof/Laws/State.lean ====
section
/-! SUPPORT. One lemma per field per update of State, all true by rfl, so that no later proof unfolds a record
update. -/

namespace Sys2Proof.Machine

@[simp] theorem writeSchedule_rk (s : State) (k : Schedule) : (writeSchedule s k).rk = k := rfl
@[simp] theorem writeSchedule_rkv (s : State) (k : Schedule) : (writeSchedule s k).rkv = true := rfl
@[simp] theorem writeSchedule_prev (s : State) (k : Schedule) : (writeSchedule s k).prev = s.prev := rfl
@[simp] theorem writeSchedule_prevv (s : State) (k : Schedule) : (writeSchedule s k).prevv = s.prevv := rfl
@[simp] theorem writeSchedule_status (s : State) (k : Schedule) : (writeSchedule s k).status = s.status := rfl
@[simp] theorem writeSchedule_host (s : State) (k : Schedule) : (writeSchedule s k).host = s.host := rfl
@[simp] theorem writeSchedule_ops (s : State) (k : Schedule) : (writeSchedule s k).ops = s.ops := rfl
@[simp] theorem writeSchedule_dout (s : State) (k : Schedule) : (writeSchedule s k).dout = s.dout := rfl
@[simp] theorem writeSchedule_out (s : State) (k : Schedule) : (writeSchedule s k).out = s.out := rfl
@[simp] theorem writeSchedule_outLen (s : State) (k : Schedule) : (writeSchedule s k).outLen = s.outLen := rfl
@[simp] theorem writeSchedule_info (s : State) (k : Schedule) : (writeSchedule s k).info = s.info := rfl
@[simp] theorem writeSchedule_params (s : State) (k : Schedule) : (writeSchedule s k).params = s.params := rfl

@[simp] theorem writePrev_rk (s : State) (v : Block) : (writePrev s v).rk = s.rk := rfl
@[simp] theorem writePrev_rkv (s : State) (v : Block) : (writePrev s v).rkv = s.rkv := rfl
@[simp] theorem writePrev_prev (s : State) (v : Block) : (writePrev s v).prev = v := rfl
@[simp] theorem writePrev_prevv (s : State) (v : Block) : (writePrev s v).prevv = true := rfl
@[simp] theorem writePrev_status (s : State) (v : Block) : (writePrev s v).status = s.status := rfl
@[simp] theorem writePrev_host (s : State) (v : Block) : (writePrev s v).host = s.host := rfl
@[simp] theorem writePrev_ops (s : State) (v : Block) : (writePrev s v).ops = s.ops := rfl
@[simp] theorem writePrev_dout (s : State) (v : Block) : (writePrev s v).dout = s.dout := rfl
@[simp] theorem writePrev_out (s : State) (v : Block) : (writePrev s v).out = s.out := rfl
@[simp] theorem writePrev_outLen (s : State) (v : Block) : (writePrev s v).outLen = s.outLen := rfl
@[simp] theorem writePrev_info (s : State) (v : Block) : (writePrev s v).info = s.info := rfl
@[simp] theorem writePrev_params (s : State) (v : Block) : (writePrev s v).params = s.params := rfl

@[simp] theorem complete_rk (s : State) (d : Option Block) : (complete s d).rk = s.rk := rfl
@[simp] theorem complete_rkv (s : State) (d : Option Block) : (complete s d).rkv = s.rkv := rfl
@[simp] theorem complete_prev (s : State) (d : Option Block) : (complete s d).prev = s.prev := rfl
@[simp] theorem complete_prevv (s : State) (d : Option Block) : (complete s d).prevv = s.prevv := rfl
@[simp] theorem complete_status (s : State) (d : Option Block) : (complete s d).status = s.status := rfl
@[simp] theorem complete_host (s : State) (d : Option Block) : (complete s d).host = s.host := rfl
@[simp] theorem complete_ops (s : State) (d : Option Block) : (complete s d).ops = s.ops := rfl
@[simp] theorem complete_dout (s : State) (d : Option Block) : (complete s d).dout = d := rfl
@[simp] theorem complete_out (s : State) (d : Option Block) : (complete s d).out = s.out := rfl
@[simp] theorem complete_outLen (s : State) (d : Option Block) : (complete s d).outLen = s.outLen := rfl
@[simp] theorem complete_info (s : State) (d : Option Block) : (complete s d).info = none := rfl
@[simp] theorem complete_params (s : State) (d : Option Block) : (complete s d).params = s.params := rfl

@[simp] theorem completeFrame_rk (s : State) (m : Memory) (n : Nat) : (completeFrame s m n).rk = s.rk := rfl
@[simp] theorem completeFrame_rkv (s : State) (m : Memory) (n : Nat) : (completeFrame s m n).rkv = s.rkv := rfl
@[simp] theorem completeFrame_prev (s : State) (m : Memory) (n : Nat) : (completeFrame s m n).prev = s.prev := rfl
@[simp] theorem completeFrame_prevv (s : State) (m : Memory) (n : Nat) : (completeFrame s m n).prevv = s.prevv := rfl
@[simp] theorem completeFrame_status (s : State) (m : Memory) (n : Nat) : (completeFrame s m n).status = s.status := rfl
@[simp] theorem completeFrame_host (s : State) (m : Memory) (n : Nat) : (completeFrame s m n).host = s.host := rfl
@[simp] theorem completeFrame_ops (s : State) (m : Memory) (n : Nat) : (completeFrame s m n).ops = s.ops := rfl
@[simp] theorem completeFrame_dout (s : State) (m : Memory) (n : Nat) : (completeFrame s m n).dout = none := rfl
@[simp] theorem completeFrame_out (s : State) (m : Memory) (n : Nat) : (completeFrame s m n).out = m := rfl
@[simp] theorem completeFrame_outLen (s : State) (m : Memory) (n : Nat) : (completeFrame s m n).outLen = n := rfl
@[simp] theorem completeFrame_info (s : State) (m : Memory) (n : Nat) : (completeFrame s m n).info = none := rfl
@[simp] theorem completeFrame_params (s : State) (m : Memory) (n : Nat) : (completeFrame s m n).params = s.params := rfl

@[simp] theorem enterFault_rk (s : State) (x : FaultCause) : (enterFault s x).rk = s.rk := rfl
@[simp] theorem enterFault_rkv (s : State) (x : FaultCause) : (enterFault s x).rkv = s.rkv := rfl
@[simp] theorem enterFault_prev (s : State) (x : FaultCause) : (enterFault s x).prev = s.prev := rfl
@[simp] theorem enterFault_prevv (s : State) (x : FaultCause) : (enterFault s x).prevv = s.prevv := rfl
@[simp] theorem enterFault_status (s : State) (x : FaultCause) : (enterFault s x).status = faultCode x := rfl
@[simp] theorem enterFault_host (s : State) (x : FaultCause) : (enterFault s x).host = s.host := rfl
@[simp] theorem enterFault_ops (s : State) (x : FaultCause) : (enterFault s x).ops = s.ops := rfl
@[simp] theorem enterFault_dout (s : State) (x : FaultCause) : (enterFault s x).dout = none := rfl
@[simp] theorem enterFault_out (s : State) (x : FaultCause) : (enterFault s x).out = [] := rfl
@[simp] theorem enterFault_outLen (s : State) (x : FaultCause) : (enterFault s x).outLen = 0 := rfl
@[simp] theorem enterFault_info (s : State) (x : FaultCause) : (enterFault s x).info = some x := rfl
@[simp] theorem enterFault_params (s : State) (x : FaultCause) : (enterFault s x).params = s.params := rfl

@[simp] theorem present_rk (s : State) (es : List HostEvent) (o : Operands) : (present s es o).rk = s.rk := rfl
@[simp] theorem present_rkv (s : State) (es : List HostEvent) (o : Operands) : (present s es o).rkv = s.rkv := rfl
@[simp] theorem present_prev (s : State) (es : List HostEvent) (o : Operands) : (present s es o).prev = s.prev := rfl
@[simp] theorem present_prevv (s : State) (es : List HostEvent) (o : Operands) : (present s es o).prevv = s.prevv := rfl
@[simp] theorem present_status (s : State) (es : List HostEvent) (o : Operands) : (present s es o).status = s.status := rfl
@[simp] theorem present_host (s : State) (es : List HostEvent) (o : Operands) : (present s es o).host = es := rfl
@[simp] theorem present_ops (s : State) (es : List HostEvent) (o : Operands) : (present s es o).ops = o := rfl
@[simp] theorem present_dout (s : State) (es : List HostEvent) (o : Operands) : (present s es o).dout = s.dout := rfl
@[simp] theorem present_out (s : State) (es : List HostEvent) (o : Operands) : (present s es o).out = s.out := rfl
@[simp] theorem present_outLen (s : State) (es : List HostEvent) (o : Operands) : (present s es o).outLen = s.outLen := rfl
@[simp] theorem present_info (s : State) (es : List HostEvent) (o : Operands) : (present s es o).info = s.info := rfl
@[simp] theorem present_params (s : State) (es : List HostEvent) (o : Operands) : (present s es o).params = s.params := rfl

@[simp] theorem hostReset_rk (p : Config.Params) (es : List HostEvent) : (hostReset p es).rk = Config.rkAtReset := rfl
@[simp] theorem hostReset_rkv (p : Config.Params) (es : List HostEvent) : (hostReset p es).rkv = false := rfl
@[simp] theorem hostReset_prev (p : Config.Params) (es : List HostEvent) : (hostReset p es).prev = Config.prevAtReset := rfl
@[simp] theorem hostReset_prevv (p : Config.Params) (es : List HostEvent) : (hostReset p es).prevv = false := rfl
@[simp] theorem hostReset_status (p : Config.Params) (es : List HostEvent) : (hostReset p es).status = 0 := rfl
@[simp] theorem hostReset_host (p : Config.Params) (es : List HostEvent) : (hostReset p es).host = es := rfl
@[simp] theorem hostReset_ops (p : Config.Params) (es : List HostEvent) : (hostReset p es).ops = Operands.idle := rfl
@[simp] theorem hostReset_dout (p : Config.Params) (es : List HostEvent) : (hostReset p es).dout = none := rfl
@[simp] theorem hostReset_out (p : Config.Params) (es : List HostEvent) : (hostReset p es).out = [] := rfl
@[simp] theorem hostReset_outLen (p : Config.Params) (es : List HostEvent) : (hostReset p es).outLen = 0 := rfl
@[simp] theorem hostReset_info (p : Config.Params) (es : List HostEvent) : (hostReset p es).info = none := rfl
@[simp] theorem hostReset_params (p : Config.Params) (es : List HostEvent) : (hostReset p es).params = p := rfl


/-- Committing a chain touches PREV and PREVV only. -/
theorem commitChain_eq (mode : Mode) (s : State) (v : Block) :
    commitChain mode s v =
      { s with prev := (match mode with | .ecb => s.prev | .cbc => v),
               prevv := (match mode with | .ecb => s.prevv | .cbc => true) } := by
  cases mode <;> rfl

@[simp] theorem commitChain_ecb (s : State) (v : Block) : commitChain .ecb s v = s := rfl
@[simp] theorem commitChain_cbc (s : State) (v : Block) : commitChain .cbc s v = writePrev s v := rfl

end Sys2Proof.Machine
end

