-- ==== Sys2Proof/Laws/Exec.lean ====
section
/-! SUPPORT. What a command can do, said once: the tests of spec 60_exceptions.md R115 one by one, then exec as a
whole (exec_next), which the proofs cite instead of unfolding a meaning. -/

namespace Sys2Proof.Machine

/-! ## The tests -/

theorem whenRunning_of_running {s : State} (k : Result) (h : s.status = 0) : whenRunning s k = k := if_pos h

theorem whenRunning_of_faulted {s : State} (k : Result) (h : s.status ≠ 0) :
    whenRunning s k = .fault (.faulted s.status) := if_neg h

theorem withKey_of_loaded {s : State} (k : Result) (h : s.rkv = true) : withKey s k = k := if_pos h

theorem withKey_of_unloaded {s : State} (k : Result) (h : s.rkv = false) :
    withKey s k = .next (enterFault s .keyNotLoaded) := if_neg (by simp [h])

theorem withChain_of_valid {s : State} (k : Result) (h : s.prevv = true) : withChain s k = k := if_pos h

theorem withChain_of_invalid {s : State} (k : Result) (h : s.prevv = false) :
    withChain s k = .next (enterFault s .chainNotInitialised) := if_neg (by simp [h])

theorem withSize_of_within {s : State} (k : Result) (h : s.ops.inLen.toNat ≤ s.params.maxLen.toNat) :
    withSize s k = k := if_neg (by simpa [opInLen] using h)

theorem withSize_of_over {s : State} (k : Result) (h : s.params.maxLen.toNat < s.ops.inLen.toNat) :
    withSize s k = .next (enterFault s (.size s.ops.inLen)) := if_pos h

theorem withAlignment_of_aligned {s : State} (k : Result) {n : Nat} (h : s.ops.inLen.toNat = 8 * (n + 1)) :
    withAlignment s k = k := if_neg (by simp only [opInLen, h]; omega)

theorem withAlignment_of_misaligned {s : State} (k : Result) (h : ∀ n, s.ops.inLen.toNat ≠ 8 * (n + 1)) :
    withAlignment s k = .next (enterFault s (.alignment s.ops.inLen)) := by
  refine if_pos ?_
  simp only [opInLen]
  by_cases h8 : s.ops.inLen.toNat < 8
  · exact .inl h8
  · refine .inr fun h0 => h ((s.ops.inLen.toNat - 8) / 8) ?_
    omega

theorem withFormat_of_fits {s : State} {hdr : Block} {lh payload : Nat} (k : Result)
    (h : lh ≤ payload) (h' : payload - lh < 8) : withFormat s hdr lh payload k = k := by
  rw [withFormat, if_neg (by omega), if_neg (by omega)]

theorem withFormat_of_misfit {s : State} {hdr : Block} {lh payload : Nat} (k : Result)
    (h : lh > payload ∨ payload - lh ≥ 8) :
    withFormat s hdr lh payload k = .next (enterFault s (.format hdr)) := by
  rw [withFormat]
  split
  · rfl
  · rw [if_pos (by omega)]; rfl

theorem whenRunning_next {s t : State} {k : Result} :
    whenRunning s k = .next t ↔ s.status = 0 ∧ k = .next t := by
  by_cases h : s.status = 0
  · simp [whenRunning_of_running k h, h]
  · rw [whenRunning_of_faulted k h]; exact ⟨fun q => (nomatch q), fun q => absurd q.1 h⟩

/-- A test that passes hands on to the rest of the command; one that fires enters its fault. -/
theorem withKey_next {s t : State} {k : Result} (h : withKey s k = .next t) :
    (∃ x, t = enterFault s x) ∨ (s.rkv = true ∧ k = .next t) := by
  cases hk : s.rkv
  · rw [withKey_of_unloaded k hk] at h; cases h; exact .inl ⟨_, rfl⟩
  · rw [withKey_of_loaded k hk] at h; exact .inr ⟨rfl, h⟩

theorem withChain_next {s t : State} {k : Result} (h : withChain s k = .next t) :
    (∃ x, t = enterFault s x) ∨ (s.prevv = true ∧ k = .next t) := by
  cases hk : s.prevv
  · rw [withChain_of_invalid k hk] at h; cases h; exact .inl ⟨_, rfl⟩
  · rw [withChain_of_valid k hk] at h; exact .inr ⟨rfl, h⟩

theorem withSize_next {s t : State} {k : Result} (h : withSize s k = .next t) :
    (∃ x, t = enterFault s x) ∨ (s.ops.inLen.toNat ≤ s.params.maxLen.toNat ∧ k = .next t) := by
  by_cases hk : s.ops.inLen.toNat ≤ s.params.maxLen.toNat
  · rw [withSize_of_within k hk] at h; exact .inr ⟨hk, h⟩
  · rw [withSize_of_over k (by omega)] at h; cases h; exact .inl ⟨_, rfl⟩

theorem withAlignment_next {s t : State} {k : Result} (h : withAlignment s k = .next t) :
    (∃ x, t = enterFault s x) ∨ ((∃ n, s.ops.inLen.toNat = 8 * (n + 1)) ∧ k = .next t) := by
  by_cases hk : ∃ n, s.ops.inLen.toNat = 8 * (n + 1)
  · obtain ⟨n, hn⟩ := hk
    rw [withAlignment_of_aligned k hn] at h; exact .inr ⟨⟨n, hn⟩, h⟩
  · rw [withAlignment_of_misaligned k (fun n hn => hk ⟨n, hn⟩)] at h; cases h; exact .inl ⟨_, rfl⟩

theorem withFormat_next {s t : State} {hdr : Block} {lh payload : Nat} {k : Result}
    (h : withFormat s hdr lh payload k = .next t) :
    (∃ x, t = enterFault s x) ∨ (lh ≤ payload ∧ payload - lh < 8 ∧ k = .next t) := by
  by_cases hk : lh ≤ payload ∧ payload - lh < 8
  · rw [withFormat_of_fits k hk.1 hk.2] at h; exact .inr ⟨hk.1, hk.2, h⟩
  · rw [withFormat_of_misfit k (by omega)] at h; cases h; exact .inl ⟨_, rfl⟩

/-! ## A frame, completed -/

/-- The cleartext blocks of a message: the header, then the data blocks bs. -/
def clearBlocks (s : State) (bs : List Block) : List Block :=
  headerBlock s.ops.rand32 s.ops.inLen.toNat :: bs

/-- The state after an FRM.E command on data blocks bs. -/
def encryptedState (mode : Mode) (s : State) (bs : List Block) : State :=
  completeFrame (commitChain mode s (runEngine mode .encrypt s.rk s.params.iv (clearBlocks s bs)).2)
    (writeBlocks [] 0 (runEngine mode .encrypt s.rk s.params.iv (clearBlocks s bs)).1)
    (8 * (dataBlockCount s.ops.inLen.toNat + 1))

/-- The state after an FRM.D command whose header is h.1, whose chaining value after the header is h.2, and whose
data ciphertext blocks are cs. -/
def decryptedState (mode : Mode) (s : State) (h : Block × Block) (cs : List Block) : State :=
  completeFrame (commitChain mode s (runEngine mode .decrypt s.rk h.2 cs).2)
    (writeTruncated [] 0 (s.ops.inLen.toNat - 8 - headerLength h.1) (runEngine mode .decrypt s.rk h.2 cs).1)
    (headerLength h.1)

/-- OUT after an FRM.E command is the stream of the engine's blocks (R102, R103). -/
theorem encryptedState_out (mode : Mode) (s : State) (bs : List Block) :
    (encryptedState mode s bs).out =
      writeBytes [] 0 (streamBytes (runEngine mode .encrypt s.rk s.params.iv (clearBlocks s bs)).1) := by
  rw [← writeBlocks_eq]; rfl

/-- OUT after an FRM.D command is the stream of the engine's blocks without the padding (R107). -/
theorem decryptedState_out {mode : Mode} {s : State} {h : Block × Block} {cs : List Block} {n : Nat}
    (hn : s.ops.inLen.toNat = 8 * (n + 1)) (hc : cs.length = n) (hf : headerLength h.1 ≤ 8 * n)
    (hf' : 8 * n - headerLength h.1 < 8) :
    (decryptedState mode s h cs).out =
      writeBytes [] 0 ((streamBytes (runEngine mode .decrypt s.rk h.2 cs).1).take (headerLength h.1)) := by
  show writeTruncated _ _ _ _ = _
  rw [writeTruncated_eq _ _ _ _ (by omega), runEngine_length, hc]
  congr 2; omega

@[simp] theorem encryptedState_outLen (mode : Mode) (s : State) (bs : List Block) :
    (encryptedState mode s bs).outLen = 8 * (dataBlockCount s.ops.inLen.toNat + 1) := rfl

@[simp] theorem decryptedState_outLen (mode : Mode) (s : State) (h : Block × Block) (cs : List Block) :
    (decryptedState mode s h cs).outLen = headerLength h.1 := rfl

@[simp] theorem encryptedState_status (mode : Mode) (s : State) (bs : List Block) :
    (encryptedState mode s bs).status = s.status := by cases mode <;> rfl

@[simp] theorem decryptedState_status (mode : Mode) (s : State) (h : Block × Block) (cs : List Block) :
    (decryptedState mode s h cs).status = s.status := by cases mode <;> rfl

/-- The bytes of OUT stand at 0 … OUT_LEN − 1 after an FRM.E command. -/
theorem encryptedState_dense {mode : Mode} {s : State} {bs : List Block}
    (hb : dataBlocks s 1 (dataBlockCount s.ops.inLen.toNat) = some bs) :
    Memory.dense (encryptedState mode s bs).out (8 * (dataBlockCount s.ops.inLen.toNat + 1)) := by
  have h := writeBytes_nil_dense (streamBytes (runEngine mode .encrypt s.rk s.params.iv (clearBlocks s bs)).1)
  rwa [streamBytes_length, runEngine_length, clearBlocks, List.length_cons, dataBlocks_length hb, ← clearBlocks,
    ← encryptedState_out] at h

/-- The bytes of OUT stand at 0 … OUT_LEN − 1 after an FRM.D command. -/
theorem decryptedState_dense {mode : Mode} {s : State} {h : Block × Block} {cs : List Block} {n : Nat}
    (hn : s.ops.inLen.toNat = 8 * (n + 1)) (hc : cs.length = n) (hf : headerLength h.1 ≤ 8 * n)
    (hf' : 8 * n - headerLength h.1 < 8) :
    Memory.dense (decryptedState mode s h cs).out (headerLength h.1) := by
  rw [decryptedState_out hn hc hf hf']
  have hd := writeBytes_nil_dense ((streamBytes (runEngine mode .decrypt s.rk h.2 cs).1).take (headerLength h.1))
  rwa [List.length_take, streamBytes_length, runEngine_length, hc, Nat.min_eq_left hf] at hd

theorem frameEncrypt_of_blocks {mode : Mode} {s : State} {bs : List Block} (h0 : s.status = 0)
    (hk : s.rkv = true) (hl : s.ops.inLen.toNat ≤ s.params.maxLen.toNat)
    (hb : dataBlocks s 1 (dataBlockCount s.ops.inLen.toNat) = some bs) :
    frameEncrypt mode s = .next (encryptedState mode s bs) := by
  rw [frameEncrypt, whenRunning_of_running _ h0, withKey_of_loaded _ hk, withSize_of_within _ hl]
  simp only [opInLen, hb]
  rfl

/-- An FRM.E command that answers a next state has raised a fault or has completed on its data blocks. -/
theorem frameEncrypt_next {mode : Mode} {s t : State} (h : frameEncrypt mode s = .next t) :
    s.status = 0 ∧ ((∃ x, t = enterFault s x) ∨
      (s.rkv = true ∧ s.ops.inLen.toNat ≤ s.params.maxLen.toNat ∧
        ∃ bs, dataBlocks s 1 (dataBlockCount s.ops.inLen.toNat) = some bs ∧ t = encryptedState mode s bs)) := by
  obtain ⟨h0, h⟩ := whenRunning_next.mp h
  refine ⟨h0, ?_⟩
  rcases withKey_next h with h | ⟨hk, h⟩
  · exact .inl h
  rcases withSize_next h with h | ⟨hl, h⟩
  · exact .inl h
  refine .inr ⟨hk, hl, ?_⟩
  simp only [opInLen] at h
  split at h
  · cases h
  · rename_i bs hb
    cases h
    exact ⟨bs, hb, rfl⟩

theorem frameDecrypt_of_blocks {mode : Mode} {s : State} {n : Nat} {c0 : Block} {cs : List Block}
    (h0 : s.status = 0) (hk : s.rkv = true) (hl : s.ops.inLen.toNat ≤ s.params.maxLen.toNat)
    (hn : s.ops.inLen.toNat = 8 * (n + 1)) (hc : memRead s.ops.inBuf 0 8 = some c0)
    (hcs : readBlocks s 8 n = some cs)
    (hf : headerLength (engineStep mode .decrypt s.rk s.params.iv c0).1 ≤ 8 * n)
    (hf' : 8 * n - headerLength (engineStep mode .decrypt s.rk s.params.iv c0).1 < 8) :
    frameDecrypt mode s = .next (decryptedState mode s (engineStep mode .decrypt s.rk s.params.iv c0) cs) := by
  rw [frameDecrypt, whenRunning_of_running _ h0, withKey_of_loaded _ hk, withSize_of_within _ hl,
    withAlignment_of_aligned _ hn]
  have hp : s.ops.inLen.toNat - 8 = 8 * n := by omega
  have hd : 8 * n / 8 = n := by omega
  simp only [opMemRead, hc, opInLen, hp]
  rw [withFormat_of_fits _ hf hf', frameBody]
  simp only [opInLen, hp, hd, hcs]
  rw [decryptedState, hp]

/-- An FRM.D command that answers a next state has raised a fault or has completed on its ciphertext blocks. -/
theorem frameDecrypt_next {mode : Mode} {s t : State} (h : frameDecrypt mode s = .next t) :
    s.status = 0 ∧ ((∃ x, t = enterFault s x) ∨
      (s.rkv = true ∧ s.ops.inLen.toNat ≤ s.params.maxLen.toNat ∧
        ∃ n c0 cs, s.ops.inLen.toNat = 8 * (n + 1) ∧ memRead s.ops.inBuf 0 8 = some c0 ∧
          readBlocks s 8 n = some cs ∧
          headerLength (engineStep mode .decrypt s.rk s.params.iv c0).1 ≤ 8 * n ∧
          8 * n - headerLength (engineStep mode .decrypt s.rk s.params.iv c0).1 < 8 ∧
          t = decryptedState mode s (engineStep mode .decrypt s.rk s.params.iv c0) cs)) := by
  obtain ⟨h0, h⟩ := whenRunning_next.mp h
  refine ⟨h0, ?_⟩
  rcases withKey_next h with h | ⟨hk, h⟩
  · exact .inl h
  rcases withSize_next h with h | ⟨hl, h⟩
  · exact .inl h
  rcases withAlignment_next h with h | ⟨⟨n, hn⟩, h⟩
  · exact .inl h
  simp only [opMemRead] at h
  split at h
  · cases h
  · rename_i c0 hc
    rcases withFormat_next h with h | ⟨hf, hf', h⟩
    · exact .inl h
    have hp : s.ops.inLen.toNat - 8 = 8 * n := by omega
    have hd : 8 * n / 8 = n := by omega
    simp only [opInLen, hp] at hf hf'
    rw [frameBody] at h
    simp only [opInLen, hp, hd] at h
    split at h
    · cases h
    · rename_i cs hcs
      cases h
      exact .inr ⟨hk, hl, n, c0, cs, hn, hc, hcs, hf, hf', by rw [decryptedState, hp]⟩

/-! ## Any command -/

/-- What it is for command i to complete from s in t, without a fault. -/
def Completes (i : Instr) (s t : State) : Prop :=
  match i with
  | .ksched => t = complete (writeSchedule s (keySchedule s.ops.key64)) none
  | .blkE => t = complete s (some (transform s.ops.din s.rk .encrypt))
  | .blkD => t = complete s (some (transform s.ops.din s.rk .decrypt))
  | .cbcInit => t = complete (writePrev s s.params.iv) none
  | .ecbE => t = complete s (some (transform s.ops.din s.rk .encrypt))
  | .ecbD => t = complete s (some (transform s.ops.din s.rk .decrypt))
  | .cbcE => s.prevv = true ∧ t = complete (writePrev s (transform (s.ops.din ^^^ s.prev) s.rk .encrypt))
      (some (transform (s.ops.din ^^^ s.prev) s.rk .encrypt))
  | .cbcD => s.prevv = true ∧ t = complete (writePrev s s.ops.din) (some (transform s.ops.din s.rk .decrypt ^^^ s.prev))
  | .frmEEcb => ∃ bs, dataBlocks s 1 (dataBlockCount s.ops.inLen.toNat) = some bs ∧ t = encryptedState .ecb s bs
  | .frmECbc => ∃ bs, dataBlocks s 1 (dataBlockCount s.ops.inLen.toNat) = some bs ∧ t = encryptedState .cbc s bs
  | .frmDEcb => ∃ n c0 cs, s.ops.inLen.toNat = 8 * (n + 1) ∧ memRead s.ops.inBuf 0 8 = some c0 ∧
      readBlocks s 8 n = some cs ∧
      headerLength (engineStep .ecb .decrypt s.rk s.params.iv c0).1 ≤ 8 * n ∧
      8 * n - headerLength (engineStep .ecb .decrypt s.rk s.params.iv c0).1 < 8 ∧
      t = decryptedState .ecb s (engineStep .ecb .decrypt s.rk s.params.iv c0) cs
  | .frmDCbc => ∃ n c0 cs, s.ops.inLen.toNat = 8 * (n + 1) ∧ memRead s.ops.inBuf 0 8 = some c0 ∧
      readBlocks s 8 n = some cs ∧
      headerLength (engineStep .cbc .decrypt s.rk s.params.iv c0).1 ≤ 8 * n ∧
      8 * n - headerLength (engineStep .cbc .decrypt s.rk s.params.iv c0).1 < 8 ∧
      t = decryptedState .cbc s (engineStep .cbc .decrypt s.rk s.params.iv c0) cs

theorem blockCommand_next {s t : State} {f : Schedule → Block → Block} (h : blockCommand s f = .next t) :
    s.status = 0 ∧ ((∃ x, t = enterFault s x) ∨ t = complete s (some (f s.rk s.ops.din))) := by
  obtain ⟨h0, h⟩ := whenRunning_next.mp h
  refine ⟨h0, ?_⟩
  rcases withKey_next h with h | ⟨_, h⟩
  · exact .inl h
  · cases h; exact .inr rfl

theorem chainCommand_next {s t : State} {action : Action} (h : chainCommand s action = .next t) :
    s.status = 0 ∧ ((∃ x, t = enterFault s x) ∨ (s.prevv = true ∧
      t = complete (writePrev s (cbcStep action s.rk s.prev s.ops.din).2)
        (some (cbcStep action s.rk s.prev s.ops.din).1))) := by
  obtain ⟨h0, h⟩ := whenRunning_next.mp h
  refine ⟨h0, ?_⟩
  rcases withKey_next h with h | ⟨_, h⟩
  · exact .inl h
  rcases withChain_next h with h | ⟨hp, h⟩
  · exact .inl h
  · cases h; exact .inr ⟨hp, rfl⟩

/-- Everything a command can do when it answers a next state: it ran from STATUS = 0, and it entered a fault or
completed. -/
theorem exec_next {i : Instr} {s t : State} (h : exec i s = .next t) :
    s.status = 0 ∧ ((∃ x, t = enterFault s x) ∨ Completes i s t) := by
  cases i with
  | ksched => obtain ⟨h0, h⟩ := whenRunning_next.mp h; cases h; exact ⟨h0, .inr rfl⟩
  | cbcInit => obtain ⟨h0, h⟩ := whenRunning_next.mp h; cases h; exact ⟨h0, .inr rfl⟩
  | blkE => exact blockCommand_next (f := rawStep .encrypt) h
  | blkD => exact blockCommand_next (f := rawStep .decrypt) h
  | ecbE => exact blockCommand_next (f := ecbStep .encrypt) h
  | ecbD => exact blockCommand_next (f := ecbStep .decrypt) h
  | cbcE => exact chainCommand_next (action := .encrypt) h
  | cbcD => exact chainCommand_next (action := .decrypt) h
  | frmEEcb => exact (frameEncrypt_next h).imp_right (Or.imp_right fun q => q.2.2)
  | frmECbc => exact (frameEncrypt_next h).imp_right (Or.imp_right fun q => q.2.2)
  | frmDEcb => exact (frameDecrypt_next h).imp_right (Or.imp_right fun q => q.2.2)
  | frmDCbc => exact (frameDecrypt_next h).imp_right (Or.imp_right fun q => q.2.2)

/-- A command that completes leaves STATUS, the host's events, the operands and the parameters as they are, and reports no cause. -/
theorem completes_ports {i : Instr} {s t : State} (hc : Completes i s t) :
    t.status = s.status ∧ t.host = s.host ∧ t.ops = s.ops ∧ t.info = none ∧ t.params = s.params := by
  cases i with
  | frmEEcb => obtain ⟨bs, hb, rfl⟩ := hc; exact ⟨rfl, rfl, rfl, rfl, rfl⟩
  | frmECbc => obtain ⟨bs, hb, rfl⟩ := hc; exact ⟨rfl, rfl, rfl, rfl, rfl⟩
  | frmDEcb => obtain ⟨n, c0, cs, _, _, _, _, _, rfl⟩ := hc; exact ⟨rfl, rfl, rfl, rfl, rfl⟩
  | frmDCbc => obtain ⟨n, c0, cs, _, _, _, _, _, rfl⟩ := hc; exact ⟨rfl, rfl, rfl, rfl, rfl⟩
  | cbcE => obtain ⟨_, rfl⟩ := hc; exact ⟨rfl, rfl, rfl, rfl, rfl⟩
  | cbcD => obtain ⟨_, rfl⟩ := hc; exact ⟨rfl, rfl, rfl, rfl, rfl⟩
  | _ => cases hc; exact ⟨rfl, rfl, rfl, rfl, rfl⟩

/-- Everything a step can do when it answers a next state. -/
theorem step_next {s t : State} (h : step s = .next t) :
    (s.host = [] ∧ s.status = 0 ∧ t = s) ∨
    (∃ rest, s.host = .reset :: rest ∧ t = hostReset s.params rest) ∨
    (∃ w o rest, s.host = .command w o :: rest ∧
      ((∃ i, decode w = .ok i ∧ exec i (present s rest o) = .next t) ∨
       (s.status = 0 ∧ t = enterFault (present s rest o) (.illegalCommand w)))) := by
  unfold step at h
  split at h
  · rename_i hh
    obtain ⟨h0, h⟩ := whenRunning_next.mp h
    cases h; exact .inl ⟨hh, h0, rfl⟩
  · rename_i rest hh
    cases h; exact .inr (.inl ⟨rest, hh, rfl⟩)
  · rename_i w o rest hh
    refine .inr (.inr ⟨w, o, rest, hh, ?_⟩)
    split at h
    · rename_i i hi; exact .inl ⟨i, hi, h⟩
    · obtain ⟨h0, h⟩ := whenRunning_next.mp h
      cases h; exact .inr ⟨h0, rfl⟩

end Sys2Proof.Machine
end

