-- ==== Sys2Proof/Laws/PerInstr.lean ====
section
/-! SUPPORT. What holds of every command as syntax, one lemma per constructor. -/

/-- The word of a command has ZERO = 000 and an operation group that is not reserved (spec 30_encoding.md R41). -/
def Sys2Proof.Laws.Encoding.Statement (i : Sys2Proof.Instr) : Prop :=
  (Sys2Proof.fieldsOf (Sys2Proof.encode i)).zero = 0 ∧ (Sys2Proof.fieldsOf (Sys2Proof.encode i)).op.toNat ≤ 4

namespace Sys2Proof.Laws.Encoding

theorem ksched : Statement .ksched := by unfold Statement; decide
theorem blkE : Statement .blkE := by unfold Statement; decide
theorem blkD : Statement .blkD := by unfold Statement; decide
theorem cbcInit : Statement .cbcInit := by unfold Statement; decide
theorem ecbE : Statement .ecbE := by unfold Statement; decide
theorem ecbD : Statement .ecbD := by unfold Statement; decide
theorem cbcE : Statement .cbcE := by unfold Statement; decide
theorem cbcD : Statement .cbcD := by unfold Statement; decide
theorem frmEEcb : Statement .frmEEcb := by unfold Statement; decide
theorem frmDEcb : Statement .frmDEcb := by unfold Statement; decide
theorem frmECbc : Statement .frmECbc := by unfold Statement; decide
theorem frmDCbc : Statement .frmDCbc := by unfold Statement; decide

end Sys2Proof.Laws.Encoding
end

