-- ==== Sys2Proof/Laws/Unread.lean ====
section
/-! SUPPORT. A change of the state that a command's tests do not read passes through each test: the lemmas behind
"this command does not read that field". -/

namespace Sys2Proof.Machine

variable {g : State → State} {s : State} {k : Result}

@[simp] theorem mapNext_next (g : State → State) (t : State) : mapNext g (.next t) = .next (g t) := rfl
@[simp] theorem mapNext_fault (g : State → State) (r : Fault) : mapNext g (.fault r) = .fault r := rfl
@[simp] theorem mapNext_refused (g : State → State) (r : Refusal) : mapNext g (.refused r) = .refused r := rfl

theorem whenRunning_mapNext (h : (g s).status = s.status) :
    whenRunning (g s) (mapNext g k) = mapNext g (whenRunning s k) := by
  unfold whenRunning; rw [h]; split <;> rfl

theorem withKey_mapNext (h : (g s).rkv = s.rkv) (hf : ∀ x, enterFault (g s) x = g (enterFault s x)) :
    withKey (g s) (mapNext g k) = mapNext g (withKey s k) := by
  unfold withKey raise; rw [h]; split
  · rfl
  · rw [hf]; rfl

theorem withChain_mapNext (h : (g s).prevv = s.prevv) (hf : ∀ x, enterFault (g s) x = g (enterFault s x)) :
    withChain (g s) (mapNext g k) = mapNext g (withChain s k) := by
  unfold withChain raise; rw [h]; split
  · rfl
  · rw [hf]; rfl

theorem withSize_mapNext (hp : (g s).params = s.params) (h : (g s).ops.inLen = s.ops.inLen) (hf : ∀ x, enterFault (g s) x = g (enterFault s x)) :
    withSize (g s) (mapNext g k) = mapNext g (withSize s k) := by
  unfold withSize raise opInLen; rw [h, hp]; split
  · rw [hf]; rfl
  · rfl

theorem withAlignment_mapNext (h : (g s).ops.inLen = s.ops.inLen)
    (hf : ∀ x, enterFault (g s) x = g (enterFault s x)) :
    withAlignment (g s) (mapNext g k) = mapNext g (withAlignment s k) := by
  unfold withAlignment raise opInLen; rw [h]; split
  · rw [hf]; rfl
  · rfl

theorem withFormat_mapNext {hdr : Block} {lh payload : Nat} (hf : ∀ x, enterFault (g s) x = g (enterFault s x)) :
    withFormat (g s) hdr lh payload (mapNext g k) = mapNext g (withFormat s hdr lh payload k) := by
  unfold withFormat raise; rw [hf]
  split
  · rfl
  · split <;> rfl

/-- The walk over IN reads IN alone. -/
theorem readBlocks_congr {s s' : State} (h : s'.ops.inBuf = s.ops.inBuf) (a n : Nat) :
    readBlocks s' a n = readBlocks s a n := by
  induction n generalizing a with
  | zero => rfl
  | succ n ih => simp only [readBlocks, opMemRead, h, ih]

/-- The data blocks read the operands alone. -/
theorem dataBlocks_congr {s s' : State} (h : s'.ops = s.ops) (j n : Nat) :
    dataBlocks s' j n = dataBlocks s j n := by
  have hb : ∀ j, dataBlock s' j = dataBlock s j := fun j => by
    simp only [dataBlock, opInLen, opMemRead, opBytes, opPad, h]; rfl
  induction n generalizing j with
  | zero => rfl
  | succ n ih => simp only [dataBlocks, hb, ih]

/-! ## The shared bodies of the commands -/

theorem blockCommand_mapNext {f : Schedule → Block → Block} (h0 : (g s).status = s.status)
    (h1 : (g s).rkv = s.rkv) (h2 : (g s).rk = s.rk) (h3 : (g s).ops.din = s.ops.din)
    (hf : ∀ x, enterFault (g s) x = g (enterFault s x)) (hc : ∀ d, complete (g s) d = g (complete s d)) :
    blockCommand (g s) f = mapNext g (blockCommand s f) := by
  simp only [blockCommand, opDin, h2, h3, hc]
  rw [← mapNext_next, withKey_mapNext h1 hf, whenRunning_mapNext h0]

theorem chainCommand_mapNext {action : Action} (h0 : (g s).status = s.status) (h1 : (g s).rkv = s.rkv)
    (h2 : (g s).rk = s.rk) (h3 : (g s).ops.din = s.ops.din) (h4 : (g s).prev = s.prev)
    (h5 : (g s).prevv = s.prevv) (hf : ∀ x, enterFault (g s) x = g (enterFault s x))
    (hc : ∀ v d, complete (writePrev (g s) v) d = g (complete (writePrev s v) d)) :
    chainCommand (g s) action = mapNext g (chainCommand s action) := by
  simp only [chainCommand, opDin, h2, h3, h4, hc]
  rw [← mapNext_next, withChain_mapNext h5 hf, withKey_mapNext h1 hf, whenRunning_mapNext h0]

theorem frameEncrypt_mapNext {mode : Mode} (h0 : (g s).status = s.status) (h1 : (g s).rkv = s.rkv)
    (h2 : (g s).rk = s.rk) (h3 : (g s).ops = s.ops) (hp : (g s).params = s.params) (hf : ∀ x, enterFault (g s) x = g (enterFault s x))
    (hc : ∀ v m n, completeFrame (commitChain mode (g s) v) m n = g (completeFrame (commitChain mode s v) m n)) :
    frameEncrypt mode (g s) = mapNext g (frameEncrypt mode s) := by
  rw [frameEncrypt, frameEncrypt, ← whenRunning_mapNext h0, ← withKey_mapNext h1 hf,
    ← withSize_mapNext hp (by rw [h3]) hf]
  simp only [opInLen, opRand32, h3, h2, hp, dataBlocks_congr h3]
  congr 3
  split
  · rfl
  · simp only [hc]; rfl

theorem frameDecrypt_mapNext {mode : Mode} (h0 : (g s).status = s.status) (h1 : (g s).rkv = s.rkv)
    (h2 : (g s).rk = s.rk) (h3 : (g s).ops.inBuf = s.ops.inBuf) (h4 : (g s).ops.inLen = s.ops.inLen)
    (hp : (g s).params = s.params) (hf : ∀ x, enterFault (g s) x = g (enterFault s x))
    (hc : ∀ v m n, completeFrame (commitChain mode (g s) v) m n = g (completeFrame (commitChain mode s v) m n)) :
    frameDecrypt mode (g s) = mapNext g (frameDecrypt mode s) := by
  rw [frameDecrypt, frameDecrypt, ← whenRunning_mapNext h0, ← withKey_mapNext h1 hf, ← withSize_mapNext hp h4 hf,
    ← withAlignment_mapNext h4 hf]
  simp only [opInLen, opMemRead, h3, h2, h4, hp]
  congr 4
  split
  · rfl
  · rw [← withFormat_mapNext hf, frameBody, frameBody]
    congr 1
    simp only [opInLen, h2, h4, readBlocks_congr h3]
    split
    · rfl
    · simp only [hc]; rfl

end Sys2Proof.Machine
end

