-- ==== Sys2Proof/Tests/Slice0.lean ====
section
/-! SUPPORT. The writer's own tests. Every expected value is a worked example of spec/ (the section stands in each
docstring) or is read off a rule by hand. The second half holds a witness for every statement that has hypotheses. -/

namespace Sys2Proof.Tests

open Sys2Proof.Machine

/-! ## Small states -/

/-- The pad draws of 95_test_vectors.md. -/
def pads : Vector Byte 7 := ⟨⟨[0xA1, 0xB2, 0xC3, 0xD4, 0xE5, 0xF6, 0x07]⟩, rfl⟩

def ops0 : Operands := { key64 := 0, din := 0, inBuf := [], inLen := 0, rand32 := 0, pad := pads }

/-- STATUS = 0, RKV = 0, PREVV = 0, nothing presented. -/
def fresh : State :=
  { rk := Vector.replicate 16 0, rkv := false, prev := 0, prevv := false, status := 0, host := [], ops := ops0,
    dout := none, out := [], outLen := 0, info := none, params := Config.defaults }

/-- RK holds the schedule of a key. -/
def keyed (key : Block) : State := { fresh with rk := keySchedule key, rkv := true }

/-- RK holds the schedule of the key of 95_test_vectors.md section 3.1. -/
def k1 : State := keyed 0x0123456789ABCDEF

/-- RK holds the schedule of the key `password` (section 3.3). -/
def kPassword : State := keyed 0x70617373776F7264

/-- RK loaded with sixteen zeros, which costs nothing to evaluate. -/
def kZero : State := { fresh with rkv := true }

def withDin (s : State) (din : Block) : State := { s with ops := { s.ops with din := din } }

/-- IN holds the bytes given, and rand32 is the draw. -/
def withIn (s : State) (bytes : List Byte) (rand32 : BitVec 32) : State :=
  { s with ops := { s.ops with inBuf := bufferFrom 0 bytes, inLen := BitVec.ofNat 64 bytes.length, rand32 := rand32 } }

/-- IN_LEN alone, for the tests that read no byte. -/
def withInLen (s : State) (n : BitVec 64) : State := { s with ops := { s.ops with inLen := n } }

/-- The command word w and the operands on the port come next. -/
def presenting (s : State) (w : Byte) : State := { s with host := [.command w s.ops] }

/-- The outcome is a next state in which p holds. -/
def nextWith (p : State → Bool) (r : Result) : Bool :=
  match r with
  | .next t => p t
  | .fault _ => false
  | .refused _ => false

theorem exists_next {r : Result} (p : State → Prop) [DecidablePred p]
    (h : nextWith (fun t => decide (p t)) r = true) : ∃ t, r = .next t ∧ p t := by
  cases r with
  | next t => exact ⟨t, rfl, of_decide_eq_true h⟩
  | fault _ => exact Bool.noConfusion h
  | refused _ => exact Bool.noConfusion h

/-- The bytes of OUT, when STATUS = 0. -/
def gives (bytes : List Byte) (t : State) : Bool :=
  decide (t.status = 0) && decide (t.out = bufferFrom 0 bytes) && decide (t.outLen = bytes.length)

/-! ## WellFormed: an ill-formed term for each check -/

theorem test_wf_refuses_unsorted : ¬ Memory.wf [(1, 0x41), (0, 0x42)] := by decide
theorem test_wf_refuses_repeat : ¬ Memory.wf [(3, 0x41), (3, 0x41)] := by decide
theorem test_dense_refuses_hole : ¬ Memory.dense [(0, 0x41), (2, 0x42)] 2 := by decide
theorem test_dense_refuses_short : ¬ Memory.dense [(0, 0x41)] 2 := by decide
theorem test_operands_refuse_missing_byte : ¬ Operands.wf Config.defaults { ops0 with inLen := 1 } := by decide
theorem test_operands_refuse_unsorted :
    ¬ Operands.wf Config.defaults { ops0 with inBuf := [(1, 0), (0, 0)], inLen := 0x80000000 } := by decide
theorem test_operands_oversize_needs_no_bytes : Operands.wf Config.defaults { ops0 with inLen := 0x80000000 } := by decide

/-! ## Decode: words written out from the fields ZERO OP M A (30_encoding.md R41, R42) -/

theorem test_decode_ksched : decode 0b000_000_0_0 = .ok .ksched := by decide
theorem test_decode_blkE : decode 0b000_001_0_0 = .ok .blkE := by decide
theorem test_decode_blkD : decode 0b000_001_0_1 = .ok .blkD := by decide
theorem test_decode_cbcInit : decode 0b000_010_1_0 = .ok .cbcInit := by decide
theorem test_decode_ecbE : decode 0b000_011_0_0 = .ok .ecbE := by decide
theorem test_decode_ecbD : decode 0b000_011_0_1 = .ok .ecbD := by decide
theorem test_decode_cbcE : decode 0b000_011_1_0 = .ok .cbcE := by decide
theorem test_decode_cbcD : decode 0b000_011_1_1 = .ok .cbcD := by decide
theorem test_decode_frmEEcb : decode 0b000_100_0_0 = .ok .frmEEcb := by decide
theorem test_decode_frmDEcb : decode 0b000_100_0_1 = .ok .frmDEcb := by decide
theorem test_decode_frmECbc : decode 0b000_100_1_0 = .ok .frmECbc := by decide
theorem test_decode_frmDCbc : decode 0b000_100_1_1 = .ok .frmDCbc := by decide

/-- The illegal words of R43 at the ends of each group. -/
theorem test_decode_illegal :
    decode 0x01 = .error .kschedBits ∧ decode 0x03 = .error .kschedBits ∧ decode 0x06 = .error .blkMode ∧
    decode 0x07 = .error .blkMode ∧ decode 0x08 = .error .cinitBits ∧ decode 0x0B = .error .cinitBits ∧
    decode 0x14 = .error .reservedOp ∧ decode 0x1F = .error .reservedOp ∧ decode 0x20 = .error .reservedZero ∧
    decode 0xFF = .error .reservedZero := by decide

/-! ## Primitives and tables -/

/-- 95_test_vectors.md sections 3.5 and 4.5. -/
theorem test_permutes :
    permute 56 tablePC1 (0x8000000000000000 : Block) = 0x01000000000000 ∧
    permute 56 tablePC1 (0x0000000000000002 : Block) = 0x00000008000000 ∧
    permute 48 tablePC2 (0x80000000000000 : BitVec 56) = 0x080000000000 ∧
    permute 48 tablePC2 (0x00000000000001 : BitVec 56) = 0x000000000100 ∧
    permute 64 tableIP (0x8000000000000000 : Block) = 0x0000000001000000 ∧
    permute 64 tableFP (0x0000000000000001 : Block) = 0x0200000000000000 ∧
    permute 48 tableE (0x00000001 : Half) = 0x800000000002 ∧
    permute 32 tableP (0x0C216D50 : Half) = 0x921C209C := by decide +kernel

/-- 40_bit_primitives.md R58, R59, R60, R61: the examples. -/
theorem test_primitives :
    split56 0xF0CCAA0AACCF00 = (0xF0CCAA0, 0xAACCF00) ∧ split64 0xCC00CCFFF0AAF0AA = (0xCC00CCFF, 0xF0AAF0AA) ∧
    rotL28 0xC000000 2 = 0x0000003 ∧ rotL28 0xE199541 1 = 0xC332A83 ∧
    byteswap64 0x0123456789ABCDEF = 0xEFCDAB8967452301 := by decide

/-- 43_block_transform.md R81: SBOX(0), SBOX of all ones, and the example. -/
theorem test_sbox :
    sbox 0 = 0xEFA72C4D ∧ sbox 0xFFFFFFFFFFFF = 0xD9CE3DCB ∧ sbox 0x711732E15CF0 = 0x0C216D50 := by decide +kernel

/-- 30_encoding.md R51: `password`, `'password'`, and 0123456789ABCDEF with a lower-case digit. -/
theorem test_key_text :
    keyOfText [0x70, 0x61, 0x73, 0x73, 0x77, 0x6F, 0x72, 0x64] = some 0x70617373776F7264 ∧
    keyOfText [0x27, 0x70, 0x61, 0x73, 0x73, 0x77, 0x6F, 0x72, 0x64, 0x27] = some 0x70617373776F7264 ∧
    keyOfText [0x30, 0x31, 0x32, 0x33, 0x34, 0x35, 0x36, 0x37, 0x38, 0x39, 0x61, 0x42, 0x43, 0x44, 0x45, 0x46] =
      some 0x0123456789ABCDEF := by decide

/-- 20_memory.md R31, R32: the examples. -/
theorem test_mem :
    memRead (bufferFrom 0 [0x41, 0x42, 0x43, 0x44, 0x45, 0x46, 0x47]) 0 7 = some 0x41424344454647 ∧
    memWrite [] 8 7 0x41424344454647 =
      [(8, 0x41), (9, 0x42), (10, 0x43), (11, 0x44), (12, 0x45), (13, 0x46), (14, 0x47)] ∧
    memRead (bufferFrom 0 [0x41]) 0 2 = none := by decide

/-- 41_tables.md R74: the tables pass every check; a repeat, a number out of range and a missing one do not. -/
theorem test_structural_checks :
    structuralChecks = true ∧ isPermutation 2 [2, 1] = true ∧ isPermutation 2 [1, 1] = false ∧
    isPermutation 2 [1, 2, 3] = false ∧ isPermutation 2 [2] = false := by decide +kernel

/-! ## One step of each command, on the worked examples -/

/-- Section 3.1: RK[0] is the source's own vector S2. -/
theorem test_ksched :
    nextWith (fun t => t.rk[0] == 0x0B02679B49A5 && t.rk[15] == 0xCA3D03B87032 && t.rkv && t.dout == none)
      (exec .ksched { fresh with ops := { ops0 with key64 := 0x0123456789ABCDEF } }) = true := by decide +kernel

/-- Section 4.1. -/
theorem test_blkE :
    nextWith (fun t => t.dout == some 0x56CC09E7CFDC4CEF) (exec .blkE (withDin k1 0x0123456789ABCDEF)) = true := by
  decide +kernel

/-- Section 4.3, the ciphertext that the source prints. -/
theorem test_blkE_fips :
    nextWith (fun t => t.dout == some 0x85E813540F0AB405)
      (exec .blkE (withDin (keyed 0x133457799BBCDFF1) 0x0123456789ABCDEF)) = true := by decide +kernel

/-- Section 4.2. -/
theorem test_blkD :
    nextWith (fun t => t.dout == some 0x0123456789ABCDEF) (exec .blkD (withDin k1 0x56CC09E7CFDC4CEF)) = true := by
  decide +kernel

/-- Section 7.3: CBC.INIT needs no key. -/
theorem test_cbcInit :
    nextWith (fun t => t.prev == 0xFB3C718924605AED && t.prevv && t.status == 0) (exec .cbcInit fresh) = true := by
  decide

/-- Section 5, step 1. -/
theorem test_ecbE :
    nextWith (fun t => t.dout == some 0xA827DE10956A609D && t.prev == 0 && !t.prevv)
      (exec .ecbE (withDin k1 0x4141414141414141)) = true := by decide +kernel

/-- Section 5, step 3. -/
theorem test_ecbD :
    nextWith (fun t => t.dout == some 0x4141414141414141) (exec .ecbD (withDin k1 0xA827DE10956A609D)) = true := by
  decide +kernel

/-- Section 5, step 6. -/
theorem test_cbcE :
    nextWith (fun t => t.dout == some 0xDF8673F8A444F428 && t.prev == 0xDF8673F8A444F428)
      (exec .cbcE (withDin { k1 with prev := 0x9330F051D463EDF0, prevv := true } 0x4141414141414141)) = true := by
  decide +kernel

/-- Section 5, step 10, where chaining on the plaintext would show. -/
theorem test_cbcD :
    nextWith (fun t => t.dout == some 0x4141414141414141 && t.prev == 0xDF8673F8A444F428)
      (exec .cbcD (withDin { k1 with prev := 0x9330F051D463EDF0, prevv := true } 0xDF8673F8A444F428)) = true := by
  decide +kernel

/-- Section 6, V1. -/
theorem test_frmEEcb :
    nextWith (gives [0xEF, 0x90, 0xFF, 0x88, 0xFC, 0x50, 0x37, 0x10, 0x23, 0x3F, 0x69, 0xD6, 0x36, 0x8C, 0xB8, 0x07])
      (exec .frmEEcb (withIn kPassword [0x74, 0x65, 0x73, 0x74, 0x74, 0x65, 0x73, 0x74] 0xDEADBEEF)) = true := by
  decide +kernel

/-- Section 6, V7: one tail byte and all seven pad draws. -/
theorem test_frmEEcb_pads :
    nextWith (gives [0x06, 0x94, 0x8B, 0x5E, 0xBB, 0x09, 0x78, 0xA7, 0x35, 0x5F, 0x93, 0x82, 0xDB, 0xDB, 0x72, 0x82])
      (exec .frmEEcb (withIn k1 [0x00] 0xFFFFFFFF)) = true := by decide +kernel

/-- Section 6, V4: two data blocks, three pad draws, and PREV after it. -/
theorem test_frmECbc :
    nextWith (fun t => gives [0x4F, 0x43, 0x50, 0x0A, 0x65, 0x08, 0x79, 0xAB, 0x9B, 0x93, 0x7F, 0x8C, 0x33, 0xAE, 0x0E,
        0x0E, 0xFB, 0xEC, 0x38, 0x67, 0xD0, 0x97, 0x02, 0x05] t && t.prev == 0xFBEC3867D0970205 && t.prevv)
      (exec .frmECbc (withIn k1 [0x48, 0x65, 0x6C, 0x6C, 0x6F, 0x2C, 0x20, 0x57, 0x6F, 0x72, 0x6C, 0x64, 0x21]
        0x0BADC0DE)) = true := by decide +kernel

/-- Section 6, V2: the empty message is one block (90_conflicts.md C2). -/
theorem test_frmECbc_empty :
    nextWith (gives [0x0D, 0x72, 0x01, 0x59, 0x02, 0x37, 0x6C, 0x69]) (exec .frmECbc (withIn k1 [] 0xCAFEF00D)) = true := by
  decide +kernel

/-- Section 7.2, the row with Lh = 1 and one data block: padding = 7. -/
theorem test_frmDEcb :
    nextWith (gives [0x41])
      (exec .frmDEcb (withIn k1 [0xF0, 0x8C, 0x57, 0x20, 0x95, 0x93, 0xFE, 0xB3, 0xA8, 0x27, 0xDE, 0x10, 0x95, 0x6A, 0x60,
        0x9D] 0)) = true := by decide +kernel

/-- Section 7.2, the row with Lh = 80000000: Format with the header, compared unsigned. -/
theorem test_frmDEcb_format :
    nextWith (fun t => t.status == 7 && t.info == some (.format 0x80000000) && t.out == [] && t.outLen == 0)
      (exec .frmDEcb (withIn k1 [0x8D, 0x8E, 0x49, 0xA4, 0xD3, 0x2B, 0x30, 0x8F, 0xA8, 0x27, 0xDE, 0x10, 0x95, 0x6A, 0x60,
        0x9D] 0)) = true := by decide +kernel

/-- Section 6, V4 decrypted. -/
theorem test_frmDCbc :
    nextWith (fun t => gives [0x48, 0x65, 0x6C, 0x6C, 0x6F, 0x2C, 0x20, 0x57, 0x6F, 0x72, 0x6C, 0x64, 0x21] t &&
        t.prev == 0xFBEC3867D0970205 && t.prevv)
      (exec .frmDCbc (withIn k1 [0x4F, 0x43, 0x50, 0x0A, 0x65, 0x08, 0x79, 0xAB, 0x9B, 0x93, 0x7F, 0x8C, 0x33, 0xAE, 0x0E,
        0x0E, 0xFB, 0xEC, 0x38, 0x67, 0xD0, 0x97, 0x02, 0x05] 0)) = true := by decide +kernel

/-- Section 6, bit flip in the header block of V6: Format, and PREV as before (45_framing_codec.md R109). -/
theorem test_frmDCbc_format :
    nextWith (fun t => t.status == 7 && t.info == some (.format 0xD5263D2B71FF5AE9) && t.prev == 0 && !t.prevv)
      (exec .frmDCbc (withIn k1 [0x74, 0x62, 0xCC, 0xF7, 0xC9, 0xD3, 0x51, 0x16, 0x07, 0x05, 0x0E, 0x69, 0x91, 0x81, 0x44,
        0x72, 0x30, 0x8C, 0xEC, 0xCF, 0xDF, 0x02, 0xAA, 0xD7] 0)) = true := by decide +kernel

/-! ## Faults (95_test_vectors.md section 7) and the step -/

/-- Sections 7.1 and 7.3: which of two causes is reported. -/
theorem test_fault_order :
    nextWith (fun t => t.status == 8) (exec .cbcE fresh) = true ∧
    nextWith (fun t => t.status == 9) (exec .cbcE kZero) = true ∧
    nextWith (fun t => t.status == 8) (exec .frmDEcb (withInLen fresh 15)) = true ∧
    nextWith (fun t => t.status == 5) (exec .frmDEcb (withInLen kZero 2147483655)) = true ∧
    nextWith (fun t => t.status == 6) (exec .frmDEcb (withInLen kZero 2147483647)) = true ∧
    nextWith (fun t => t.status == 6) (exec .frmDCbc (withInLen kZero 0)) = true ∧
    nextWith (fun t => t.status == 5) (exec .frmECbc (withInLen kZero 2147483648)) = true := by decide

/-- 00_scope.md R6: IV and MAXLEN may take other values: a cap of 15 bytes, and an IV of 1 (45_framing_codec.md R101,
44_mode_engines.md R89). -/
theorem test_other_parameters :
    nextWith (fun t => t.status == 5) (exec .frmDEcb { withInLen kZero 16 with params := { iv := 1, maxLen := 15 } }) = true ∧
    nextWith (fun t => t.status == 6) (exec .frmDEcb { withInLen kZero 15 with params := { iv := 1, maxLen := 15 } }) = true ∧
    nextWith (fun t => t.prev == 1) (exec .cbcInit { fresh with params := { iv := 1, maxLen := 15 } }) = true := by decide

/-- Section 7.3: an illegal word from reset. -/
theorem test_step_illegal :
    nextWith (fun t => t.status == 1 && t.info == some (.illegalCommand 0x01))
      (step (State.reset.withFetchWord 8 0x01)) = true := by decide

/-- Section 7.3: a command that needs a key, from reset. -/
theorem test_step_reset_blkE :
    nextWith (fun t => t.status == 8 && t.dout == none) (step (State.reset.withFetchWord 8 0x04)) = true := by decide

/-- 60_exceptions.md R117: refused while FAULTED, legal or not; reset leads out. -/
theorem test_step_faulted :
    step { presenting fresh 0x0A with status := 6 } = .fault (.faulted 6) ∧
    step { presenting fresh 0xFF with status := 6 } = .fault (.faulted 6) ∧
    nextWith (fun t => t.status == 0 && !t.rkv) (step { kZero with host := [.reset], status := 6 }) = true := by
  exact ⟨rfl, rfl, by decide⟩

/-- The refusal that 20_memory.md R31 allows: IN lacks a byte below IN_LEN. -/
theorem test_in_too_short : exec .frmEEcb (withInLen kZero 3) = .refused (.inReadOutOfRange 3) := by rfl

/-! ## A witness for every statement that has hypotheses, for each of its clauses -/

theorem witness_DecodeInvertsEncode : decode 0x0D = .ok .ecbD ∧ decode 0x13 = .ok .frmDCbc := by decide

/-- Both clauses of the step: one word of each group, presented with STATUS = 0. -/
theorem witness_IllegalWordsRaiseIllegalCommand :
    ∀ w ∈ ([0x01, 0x03, 0x06, 0x07, 0x08, 0x0B, 0x14, 0x1F, 0x20, 0xFF] : List Byte),
      (presenting fresh w).host = .command w ops0 :: [] ∧ (∃ e, decode w = .error e) ∧
      (presenting fresh w).status = 0 := by
  intro w hw
  refine ⟨rfl, ?_, rfl⟩
  simp only [List.mem_cons, List.not_mem_nil, or_false] at hw
  rcases hw with rfl | rfl | rfl | rfl | rfl | rfl | rfl | rfl | rfl | rfl <;> exact ⟨_, rfl⟩

theorem witness_StepRunsDecodedCommand :
    (presenting k1 0x04).host = .command 0x04 ops0 :: [] ∧ decode 0x04 = .ok .blkE := ⟨rfl, by decide⟩

/-- A FAULTED state before a command, before nothing, and before a reset. -/
theorem witness_FaultedIsTerminal :
    (({ presenting k1 0x04 with status := 5 } : State).status ≠ 0 ∧
      ∀ rest, ({ presenting k1 0x04 with status := 5 } : State).host ≠ .reset :: rest) ∧
    (({ k1 with status := 9 } : State).status ≠ 0 ∧ ∀ rest, ({ k1 with status := 9 } : State).host ≠ .reset :: rest) ∧
    (({ k1 with host := [.reset], status := 1 } : State).status ≠ 0 ∧
      ({ k1 with host := [.reset], status := 1 } : State).host = .reset :: []) :=
  ⟨⟨by decide, fun _ h => by cases h⟩, ⟨by decide, fun _ h => by cases h⟩, by decide, rfl⟩

theorem witness_ResetClearsFlagsAndStatus :
    ({ k1 with host := [.reset], status := 7, prevv := true } : State).host = .reset :: [] := rfl

/-- A command under parameters that are not the defaults, and a reset. -/
theorem witness_ParametersAreConstants :
    (∃ t, step { presenting fresh 0x0A with params := { iv := 1, maxLen := 15 } } = .next t ∧ t.prev = (1 : Block)) ∧
    ∃ t, step { k1 with host := [.reset], params := { iv := 1, maxLen := 15 } } = .next t ∧ t.rkv = false :=
  ⟨exists_next (fun t => t.prev = (1 : Block)) (by decide), exists_next (fun t => t.rkv = false) (by decide)⟩

theorem witness_IdlingHoldsTheState : k1.host = [] ∧ k1.status = 0 := ⟨rfl, rfl⟩

theorem witness_PermuteSelectsTheNamedBits :
    tableE.length = 48 ∧ (∀ t ∈ tableE, 1 ≤ t ∧ t ≤ 32) ∧ 0 < 48 ∧ 47 < 48 := by decide

/-- The two amounts at the ends of the bits, and the rotations of the table ROT. -/
theorem witness_RotationMovesEveryBit :
    ((1 = 1 ∨ 1 = 2) ∧ 27 < 28) ∧ ((2 = 1 ∨ 2 = 2) ∧ 0 < 28) ∧ (∀ n ∈ tableROT, n = 1 ∨ n = 2) ∧ tableROT.sum = 28 := by
  decide

theorem witness_ByteswapReversesBytes : 0 < 8 ∧ 7 < 8 := by decide

theorem witness_SixBitFieldsRowAndColumn : (1 ≤ 1 ∧ 1 ≤ 8) ∧ (1 ≤ 8 ∧ 8 ≤ 8) := by decide

/-- No byte, and the largest value of one byte and of eight; an offset below, and the first one above. -/
theorem witness_MemoryIsBigEndian :
    0 ≤ 8 ∧ (1 ≤ 8 ∧ 1 ≤ 1 ∧ 0 < 1 ∧ (0xFF : Block).toNat < 2 ^ (8 * 1)) ∧
    (8 ≤ 8 ∧ 7 < 8 ∧ (0xFFFFFFFFFFFFFFFF : Block).toNat < 2 ^ (8 * 8)) ∧ (7 < 8 ∨ 8 + 7 ≤ 7) ∧ (15 < 8 ∨ 8 + 7 ≤ 15) := by
  decide

/-- Eight characters with the first and the last printable ones among them; sixteen digits with the ends 0, 9, a, f,
A, F of the three ranges at indexes 0 to 5, and the last index; nine characters. -/
theorem witness_KeyTextPacking :
    (([0x20, 0x7E, 0x61, 0x62, 0x63, 0x64, 0x65, 0x66] : List Byte).length = 8 ∧
      ∀ c ∈ ([0x20, 0x7E, 0x61, 0x62, 0x63, 0x64, 0x65, 0x66] : List Byte), 0x20 ≤ c.toNat ∧ c.toNat ≤ 0x7E) ∧
    (let cs : List Byte :=
        [0x30, 0x39, 0x61, 0x66, 0x41, 0x46, 0x30, 0x30, 0x30, 0x30, 0x30, 0x30, 0x30, 0x30, 0x30, 0x46];
      cs.length = 16 ∧
      (∀ c ∈ cs, (0x30 ≤ c.toNat ∧ c.toNat ≤ 0x39) ∨ (0x61 ≤ c.toNat ∧ c.toNat ≤ 0x66) ∨
        (0x41 ≤ c.toNat ∧ c.toNat ≤ 0x46)) ∧
      [cs[0]?, cs[1]?, cs[2]?, cs[3]?, cs[4]?, cs[5]?, cs[15]?] =
        [some 0x30, some 0x39, some 0x61, some 0x66, some 0x41, some 0x46, some 0x46]) ∧
    ((List.replicate 9 (0x41 : Byte)).length ≠ 8 ∧ (List.replicate 9 (0x41 : Byte)).length ≠ 10 ∧
      (List.replicate 9 (0x41 : Byte)).length ≠ 16) := by decide

/-- STATUS ≠ 0, and STATUS = 0: the two cases of KSCHED and CBC.INIT. -/
theorem witness_KschedWritesTheSchedule : ({ fresh with status := 6 } : State).status ≠ 0 ∧ fresh.status = 0 := by decide
theorem witness_CbcInitLoadsTheIv : ({ fresh with status := 6 } : State).status ≠ 0 ∧ fresh.status = 0 := by decide

/-- The example of 42_key_schedule.md R79 point 1: the key with its parity bits, and without. -/
theorem witness_ScheduleIgnoresParityBits :
    (∀ i, i < 64 → (0x0101010101010101 : Block).getLsbD i = true → i % 8 = 0) ∧
    ((0x0123456789ABCDEF : Block) ^^^ 0x0101010101010101 = 0x0022446688AACCEE) := by decide

theorem witness_SboxOutputsInOrder : (1 ≤ 1 ∧ 1 ≤ 8) ∧ (1 ≤ 8 ∧ 8 ≤ 8) := by decide

/-- A schedule that reads the same in both directions. -/
theorem witness_TransformInverseLaw :
    ∀ i : Fin 16, (Vector.replicate 16 (0 : RoundKey))[i] = (Vector.replicate 16 (0 : RoundKey))[15 - i.val] := by decide

/-- Refused, no key, and keyed: the cases of the block commands. -/
theorem witness_BlockCommandsTransformDin :
    ({ k1 with status := 6 } : State).status ≠ 0 ∧ (fresh.status = 0 ∧ fresh.rkv = false) ∧
    (k1.status = 0 ∧ k1.rkv = true) := ⟨by decide, ⟨rfl, rfl⟩, rfl, rfl⟩
theorem witness_EcbCommandsTransformDin :
    ({ k1 with status := 6 } : State).status ≠ 0 ∧ (fresh.status = 0 ∧ fresh.rkv = false) ∧
    (k1.status = 0 ∧ k1.rkv = true) := ⟨by decide, ⟨rfl, rfl⟩, rfl, rfl⟩

/-- Refused, no key, no chain, and both: the cases of CBC.E and CBC.D. -/
theorem witness_CbcEncryptChainsTheCiphertext :
    ({ k1 with status := 6 } : State).status ≠ 0 ∧ (fresh.status = 0 ∧ fresh.rkv = false) ∧
    (k1.status = 0 ∧ k1.rkv = true ∧ k1.prevv = false) ∧
    (({ k1 with prevv := true } : State).status = 0 ∧ ({ k1 with prevv := true } : State).rkv = true ∧
      ({ k1 with prevv := true } : State).prevv = true) :=
  ⟨by decide, ⟨rfl, rfl⟩, ⟨rfl, rfl, rfl⟩, rfl, rfl, rfl⟩
theorem witness_CbcDecryptChainsTheCiphertext :
    ({ k1 with status := 6 } : State).status ≠ 0 ∧ (fresh.status = 0 ∧ fresh.rkv = false) ∧
    (k1.status = 0 ∧ k1.rkv = true ∧ k1.prevv = false) ∧
    (({ k1 with prevv := true } : State).status = 0 ∧ ({ k1 with prevv := true } : State).rkv = true ∧
      ({ k1 with prevv := true } : State).prevv = true) :=
  ⟨by decide, ⟨rfl, rfl⟩, ⟨rfl, rfl, rfl⟩, rfl, rfl, rfl⟩

theorem witness_EcbRoundTrip : k1.status = 0 ∧ k1.rkv = true := ⟨rfl, rfl⟩
theorem witness_CbcChainRoundTrip : k1.status = 0 ∧ k1.rkv = true := ⟨rfl, rfl⟩
theorem witness_CbcErrorPropagation :
    ({ k1 with prevv := true } : State).status = 0 ∧ ({ k1 with prevv := true } : State).rkv = true ∧
    ({ k1 with prevv := true } : State).prevv = true ∧ (0x8000000000000000 : Block) ≠ 0 := ⟨rfl, rfl, rfl, by decide⟩

/-- A whole block, and a tail of seven bytes: one byte position on each side of the end of IN. -/
theorem witness_DataBlockBytes :
    (Operands.wf Config.defaults (withIn k1 [1, 2, 3, 4, 5, 6, 7, 8] 0).ops ∧ (withIn k1 [1, 2, 3, 4, 5, 6, 7, 8] 0).ops.inLen.toNat ≤ 2147483647 ∧
      1 ≤ 1 ∧ 1 ≤ (8 + 7) / 8) ∧
    (Operands.wf Config.defaults (withIn k1 [1, 2, 3, 4, 5, 6, 7] 0).ops ∧ (withIn k1 [1, 2, 3, 4, 5, 6, 7] 0).ops.inLen.toNat = 7 ∧
      1 ≤ 1 ∧ 1 ≤ (7 + 7) / 8 ∧ 8 * (1 - 1) + 6 < 7 ∧ ¬ 8 * (1 - 1) + 7 < 7) := by decide

/-- The clauses that the four FRM commands share: refused, no key, and one byte too many. -/
theorem witness_frame_admission :
    ({ k1 with status := 6 } : State).status ≠ 0 ∧ (fresh.status = 0 ∧ fresh.rkv = false) ∧
    ((withInLen k1 0x80000000).status = 0 ∧ (withInLen k1 0x80000000).rkv = true ∧
      (withInLen k1 0x80000000).ops.inLen.toNat > 2147483647) := ⟨by decide, ⟨rfl, rfl⟩, rfl, rfl, by decide⟩

/-- The further clause of the FRM.D commands: an IN_LEN below 8, and one that is no multiple of 8. -/
theorem witness_frame_alignment :
    (withInLen k1 7).status = 0 ∧ (withInLen k1 7).rkv = true ∧ (withInLen k1 7).ops.inLen.toNat ≤ 2147483647 ∧
    ((withInLen k1 7).ops.inLen.toNat < 8 ∨ ((withInLen k1 7).ops.inLen.toNat - 8) % 8 ≠ 0) ∧
    ((withInLen k1 15).ops.inLen.toNat < 8 ∨ ((withInLen k1 15).ops.inLen.toNat - 8) % 8 ≠ 0) :=
  ⟨rfl, rfl, by decide, by decide, by decide⟩

/-- The last clause of the FRM.E commands: the empty message, and one with a tail (V2 and V3 of section 6). -/
theorem witness_FrameEncryptEcb :
    (withIn k1 [] 0).status = 0 ∧ (withIn k1 [] 0).rkv = true ∧ (withIn k1 [] 0).ops.inLen.toNat ≤ 2147483647 ∧
    Operands.wf Config.defaults (withIn k1 [] 0).ops ∧
    Operands.wf Config.defaults (withIn k1 [0x41, 0x42, 0x43, 0x44, 0x45, 0x46, 0x47] 0x12345678).ops ∧
    (withIn k1 [0x41, 0x42, 0x43, 0x44, 0x45, 0x46, 0x47] 0x12345678).ops.inLen.toNat ≤ 2147483647 ∧
    1 ≤ 1 ∧ 1 ≤ ((withIn k1 [0x41, 0x42, 0x43, 0x44, 0x45, 0x46, 0x47] 0x12345678).ops.inLen.toNat + 7) / 8 :=
  ⟨rfl, rfl, by decide, by decide, by decide, by decide, by decide, by decide⟩
theorem witness_FrameEncryptCbc :
    (withIn k1 [] 0).status = 0 ∧ (withIn k1 [] 0).rkv = true ∧ (withIn k1 [] 0).ops.inLen.toNat ≤ 2147483647 ∧
    Operands.wf Config.defaults (withIn k1 [] 0).ops := ⟨rfl, rfl, by decide, by decide⟩
theorem witness_FrameRoundTrip :
    (withIn k1 [0x41, 0x42, 0x43, 0x44, 0x45, 0x46, 0x47] 1).status = 0 ∧
    (withIn k1 [0x41, 0x42, 0x43, 0x44, 0x45, 0x46, 0x47] 1).rkv = true ∧
    Operands.wf Config.defaults (withIn k1 [0x41, 0x42, 0x43, 0x44, 0x45, 0x46, 0x47] 1).ops ∧
    (withIn k1 [0x41, 0x42, 0x43, 0x44, 0x45, 0x46, 0x47] 1).ops.inLen.toNat = 7 ∧ 8 * ((7 + 7) / 8 + 1) ≤ k1.params.maxLen.toNat :=
  ⟨rfl, rfl, by decide, by decide, by decide⟩
theorem witness_CbcFrameEncryptionIsItsEngineSteps :
    (withIn k1 [1, 2, 3, 4, 5, 6, 7, 8, 9] 1).status = 0 ∧ (withIn k1 [1, 2, 3, 4, 5, 6, 7, 8, 9] 1).rkv = true ∧
    Operands.wf Config.defaults (withIn k1 [1, 2, 3, 4, 5, 6, 7, 8, 9] 1).ops ∧
    (withIn k1 [1, 2, 3, 4, 5, 6, 7, 8, 9] 1).ops.inLen.toNat ≤ 2147483647 := ⟨rfl, rfl, by decide, by decide⟩

/-- V2e: the header alone, Lh = 0, n = 0. -/
theorem witness_FrameDecryptEcb :
    (withIn k1 [0xC6, 0xA2, 0x8B, 0x44, 0xB7, 0xE4, 0x25, 0x7B] 0).ops.inLen.toNat = 8 * (0 + 1) ∧
    memRead (withIn k1 [0xC6, 0xA2, 0x8B, 0x44, 0xB7, 0xE4, 0x25, 0x7B] 0).ops.inBuf (8 * 0) 8 =
      some 0xC6A28B44B7E4257B ∧
    headerLength (transform 0xC6A28B44B7E4257B k1.rk .decrypt) ≤ 8 * 0 ∧
    8 * 0 - headerLength (transform 0xC6A28B44B7E4257B k1.rk .decrypt) < 8 ∧
    k1.status = 0 ∧ k1.rkv = true := by decide +kernel

/-- V3e: Lh = 7, n = 1. -/
theorem witness_FrameDecryptEcb_tail :
    (withIn k1 [0xBF, 0xDC, 0xAE, 0xB8, 0x40, 0x35, 0x79, 0xD2, 0x8A, 0x18, 0x97, 0x61, 0x02, 0xE7, 0xD5, 0xCD]
      0).ops.inLen.toNat = 8 * (1 + 1) ∧
    (∀ j : Fin 2, memRead (bufferFrom 0 [0xBF, 0xDC, 0xAE, 0xB8, 0x40, 0x35, 0x79, 0xD2, 0x8A, 0x18, 0x97, 0x61, 0x02,
      0xE7, 0xD5, 0xCD]) (8 * j.val) 8 = some (if j.val = 0 then 0xBFDCAEB8403579D2 else 0x8A18976102E7D5CD)) ∧
    headerLength (transform 0xBFDCAEB8403579D2 k1.rk .decrypt) ≤ 8 * 1 ∧
    8 * 1 - headerLength (transform 0xBFDCAEB8403579D2 k1.rk .decrypt) < 8 := by decide +kernel

/-- The Format clause: the header of section 7.2 with Lh = 1, no data block; and V3's header alone. -/
theorem witness_FrameDecrypt_format :
    memRead (bufferFrom 0 [0xF0, 0x8C, 0x57, 0x20, 0x95, 0x93, 0xFE, 0xB3]) (8 * 0) 8 = some 0xF08C57209593FEB3 ∧
    headerLength (transform 0xF08C57209593FEB3 k1.rk .decrypt) > 8 * 0 ∧
    memRead (bufferFrom 0 [0x17, 0xA3, 0x90, 0x6A, 0x40, 0x2B, 0xF1, 0xFE]) (8 * 0) 8 = some 0x17A3906A402BF1FE ∧
    headerLength (transform 0x17A3906A402BF1FE k1.rk .decrypt ^^^ 0xFB3C718924605AED) > 8 * 0 := by decide +kernel

/-- V3: Lh = 7, n = 1. -/
theorem witness_FrameDecryptCbc :
    (withIn k1 [0x17, 0xA3, 0x90, 0x6A, 0x40, 0x2B, 0xF1, 0xFE, 0xD1, 0x20, 0xAE, 0x1E, 0x9D, 0xAB, 0x21, 0xE8]
      0).ops.inLen.toNat = 8 * (1 + 1) ∧
    (∀ j : Fin 2, memRead (bufferFrom 0 [0x17, 0xA3, 0x90, 0x6A, 0x40, 0x2B, 0xF1, 0xFE, 0xD1, 0x20, 0xAE, 0x1E, 0x9D,
      0xAB, 0x21, 0xE8]) (8 * j.val) 8 = some (if j.val = 0 then 0x17A3906A402BF1FE else 0xD120AE1E9DAB21E8)) ∧
    headerLength (transform 0x17A3906A402BF1FE k1.rk .decrypt ^^^ 0xFB3C718924605AED) ≤ 8 * 1 ∧
    8 * 1 - headerLength (transform 0x17A3906A402BF1FE k1.rk .decrypt ^^^ 0xFB3C718924605AED) < 8 ∧
    k1.status = 0 ∧ k1.rkv = true := by decide +kernel

/-- Two runs that complete, on draws that differ. -/
theorem witness_EcbFrameRandomHalfStaysInTheHeader :
    (∃ t, exec .frmEEcb (withIn kZero [1, 2, 3] 0) = .next t ∧ t.status = 0) ∧
    (∃ u, exec .frmEEcb { withIn kZero [1, 2, 3] 0 with ops := { (withIn kZero [1, 2, 3] 0).ops with rand32 := 1 } } =
      .next u ∧ True) ∧ (1 : BitVec 32) ≠ (withIn kZero [1, 2, 3] 0).ops.rand32 :=
  ⟨exists_next (fun t => t.status = 0) (by decide +kernel), exists_next (fun _ => True) (by decide +kernel), by decide⟩
theorem witness_CbcFrameRandomHalfReachesEveryBlock :
    (∃ t, exec .frmECbc (withIn kZero [1, 2, 3] 0) = .next t ∧ t.status = 0) ∧
    (∃ u, exec .frmECbc { withIn kZero [1, 2, 3] 0 with ops := { (withIn kZero [1, 2, 3] 0).ops with rand32 := 1 } } =
      .next u ∧ True) ∧ (1 : BitVec 32) ≠ (withIn kZero [1, 2, 3] 0).ops.rand32 ∧ 8 * 1 < 16 :=
  ⟨exists_next (fun t => t.status = 0) (by decide +kernel), exists_next (fun _ => True) (by decide +kernel), by decide,
    by decide⟩

/-- A command that reads RK, and one that does not. -/
theorem witness_KeyNotLoadedFault :
    fresh.status = 0 ∧ fresh.rkv = false ∧ Instr.frmDCbc.readsKey = true ∧ Instr.cbcInit.readsKey = false := by decide

/-- One byte above MAXLEN, and the largest IN_LEN. -/
theorem witness_SizeFault :
    Instr.frmDCbc.isFrame = true ∧ kZero.status = 0 ∧ kZero.rkv = true ∧
    (withInLen kZero 0x80000000).ops.inLen.toNat > 2147483647 ∧
    (withInLen kZero 0xFFFFFFFFFFFFFFFF).ops.inLen.toNat > 2147483647 := by decide

/-- V2e again: an aligned FRM.D that answers a next state, the second clause of AlignmentFault. -/
theorem witness_AlignmentFault_aligned :
    (withIn k1 [0xC6, 0xA2, 0x8B, 0x44, 0xB7, 0xE4, 0x25, 0x7B] 0).ops.inLen.toNat = 8 * (0 + 1) ∧
    ∃ t, exec (frameCommand .decrypt .ecb) (withIn k1 [0xC6, 0xA2, 0x8B, 0x44, 0xB7, 0xE4, 0x25, 0x7B] 0) = .next t ∧
      t.status ≠ 6 :=
  ⟨by decide, exists_next (fun t => t.status ≠ 6) (by decide +kernel)⟩

/-- No byte, 15 bytes, and MAXLEN bytes. -/
theorem witness_AlignmentFault :
    kZero.status = 0 ∧ kZero.rkv = true ∧
    (∀ x ∈ ([0, 15, 0x7FFFFFFF] : List (BitVec 64)), (withInLen kZero x).ops.inLen.toNat ≤ 2147483647 ∧
      ∀ n, (withInLen kZero x).ops.inLen.toNat ≠ 8 * (n + 1)) := by
  refine ⟨rfl, rfl, fun x hx => ?_⟩
  simp only [List.mem_cons, List.not_mem_nil, or_false] at hx
  rcases hx with rfl | rfl | rfl
  · exact ⟨by decide, fun n => show (0 : Nat) ≠ _ by omega⟩
  · exact ⟨by decide, fun n => show (15 : Nat) ≠ _ by omega⟩
  · exact ⟨by decide, fun n => show (2147483647 : Nat) ≠ _ by omega⟩

/-- 95_test_vectors.md section 7.2: Lh = 9 with payload 8, and Lh = 0 with payload 8. -/
theorem witness_FormatFault :
    (memRead (bufferFrom 0 [0xBE, 0x5A, 0xB0, 0xEE, 0xAA, 0x9E, 0xEF, 0xEF]) 0 8 = some 0xBE5AB0EEAA9EEFEF ∧
      (transform 0xBE5AB0EEAA9EEFEF k1.rk .decrypt).toNat % 2 ^ 32 > 8 * 1) ∧
    (memRead (bufferFrom 0 [0xD5, 0xD4, 0x4F, 0xF7, 0x20, 0x68, 0x3D, 0x0D]) 0 8 = some 0xD5D44FF720683D0D ∧
      8 * 1 - (transform 0xD5D44FF720683D0D k1.rk .decrypt).toNat % 2 ^ 32 ≥ 8) ∧
    (memRead (bufferFrom 0 [0x74, 0x62, 0xCC, 0xF7, 0xC9, 0xD3, 0x51, 0x16]) 0 8 = some 0x7462CCF7C9D35116 ∧
      (transform 0x7462CCF7C9D35116 k1.rk .decrypt ^^^ 0xFB3C718924605AED).toNat % 2 ^ 32 > 8 * 2) ∧
    (withInLen k1 16).ops.inLen.toNat = 8 * (1 + 1) ∧ (withInLen k1 24).ops.inLen.toNat = 8 * (2 + 1) ∧
    k1.status = 0 ∧ k1.rkv = true := by decide +kernel

theorem witness_FaultEntryIsPrecise : ∃ t, exec .cbcE kZero = .next t ∧ t.status ≠ 0 :=
  exists_next (fun t => t.status ≠ 0) (by decide)

theorem witness_OnlyKschedWritesRoundKeys :
    (∃ t, exec .cbcInit k1 = .next t ∧ True) ∧ Instr.cbcInit ≠ .ksched :=
  ⟨exists_next (fun _ => True) (by decide), by decide⟩

theorem witness_OnlyCbcCommandsWriteTheChain :
    (∃ t, exec .blkE kZero = .next t ∧ True) ∧
    Instr.blkE ∉ ([.cbcInit, .cbcE, .cbcD, .frmECbc, .frmDCbc] : List Instr) :=
  ⟨exists_next (fun _ => True) (by decide +kernel), by decide⟩

/-- A step that keeps both flags set and changes PREV. -/
theorem witness_ValidFlagsStaySet :
    (∃ t, step (presenting { kZero with prevv := true } 0x0A) = .next t ∧ t.prev ≠ (0 : Block)) ∧
    (∀ rest, (presenting { kZero with prevv := true } 0x0A).host ≠ .reset :: rest) ∧
    (presenting { kZero with prevv := true } 0x0A).rkv = true ∧ (presenting { kZero with prevv := true } 0x0A).prevv = true :=
  ⟨exists_next (fun t => t.prev ≠ (0 : Block)) (by decide), fun _ h => (by cases h), rfl, rfl⟩

theorem witness_UnwrittenRegistersAreNotRead :
    fresh.rkv = false ∧ Instr.blkE ≠ .ksched ∧ fresh.prevv = false ∧
    Instr.cbcD ∉ ([.cbcInit, .frmECbc, .frmDCbc] : List Instr) ∧
    Instr.frmECbc ∈ ([.frmECbc, .frmDCbc] : List Instr) ∧ Instr.frmDCbc ∈ ([.frmECbc, .frmDCbc] : List Instr) := by decide

theorem witness_EcbCommandsIgnoreTheChain :
    Instr.frmDEcb ∈ ([.ksched, .blkE, .blkD, .ecbE, .ecbD, .frmEEcb, .frmDEcb] : List Instr) := by decide

theorem witness_OnlyFrameEncryptionDraws : Instr.frmDCbc ∉ ([.frmEEcb, .frmECbc] : List Instr) := by decide

/-- A command that completes and is no FRM command, and an FRM command that completes. -/
theorem witness_CommandsLeaveOtherBytesAlone :
    (∃ t, exec .cbcInit fresh = .next t ∧ t.status = 0) ∧ Instr.cbcInit.isFrame = false ∧
    (∃ t, exec .frmEEcb (withIn kZero [1, 2, 3] 0) = .next t ∧ t.status = 0) ∧ Instr.frmEEcb.isFrame = true :=
  ⟨exists_next (fun t => t.status = 0) (by decide), rfl, exists_next (fun t => t.status = 0) (by decide +kernel), rfl⟩

/-- Well-formed operands, and a step from a state whose host side is well-formed. -/
theorem witness_NoRefusalOnWellFormedOperands :
    Operands.wf Config.defaults (withIn k1 [1, 2, 3] 0).ops ∧ (presenting fresh 0x0A).hostWf ∧
    ∃ t, step (presenting fresh 0x0A) = .next t ∧ t.status = 0 :=
  ⟨by decide, ⟨by decide, fun e he => by
    simp only [presenting, List.mem_cons, List.not_mem_nil, or_false] at he
    subst he
    exact (by decide : Operands.wf Config.defaults ops0)⟩, exists_next (fun t => t.status = 0) (by decide)⟩

/-- A state that meets the invariant and takes a step. -/
theorem witness_EveryStepKeepsTheInvariant :
    (presenting fresh 0x0A).Inv ∧ ∃ t, step (presenting fresh 0x0A) = .next t ∧ t.status = 0 :=
  ⟨by decide, exists_next (fun t => t.status = 0) (by decide)⟩

end Sys2Proof.Tests
end

section
/-! SUPPORT. The parameters IV and MAXLEN (spec 00_scope.md R6) along a command and a step. -/

namespace Sys2Proof.Machine

/-- A command keeps the parameters, whether it completes or enters a fault. -/
theorem exec_params {i : Instr} {s t : State} (h : exec i s = .next t) : t.params = s.params := by
  obtain ⟨-, ⟨x, rfl⟩ | hc⟩ := exec_next h
  · exact enterFault_params s x
  · obtain ⟨-, -, -, -, hp⟩ := completes_ports hc
    exact hp

/-- A step keeps the parameters: idling changes nothing, a reset is handed them, and presenting a command leaves
them to the command or to the fault entry. -/
theorem step_params {s t : State} (h : step s = .next t) : t.params = s.params := by
  obtain ⟨-, -, rfl⟩ | ⟨rest, -, rfl⟩ | ⟨w, ops, rest, -, ⟨i, -, hexec⟩ | ⟨-, rfl⟩⟩ := step_next h
  · rfl
  · exact hostReset_params s.params rest
  · exact (exec_params hexec).trans (present_params s rest ops)
  · simp only [enterFault_params, present_params]

/-- Settles O7: the reset state holds the defaults by definition, and step_params covers every step. -/
theorem parametersAreConstants : Obligations.ParametersAreConstants :=
  ⟨⟨rfl, rfl⟩, fun _ _ h => step_params h⟩

end Sys2Proof.Machine
end

section
/-! SUPPORT. What a command leaves behind when it answers a next state (spec 10_state.md R11 to R14, R24,
20_memory.md R27, 60_exceptions.md R116), said once as a list of shapes. The proofs about what commands and steps leave
unchanged go through these shapes instead of through the twelve commands. -/

namespace Sys2Proof.Machine

/-- The commands that write PREV and PREVV (R13). -/
abbrev chainWriters : List Instr := [.cbcInit, .cbcE, .cbcD, .frmECbc, .frmDCbc]

/-- The shapes of a state that command i leaves from s: the fault entry, or a completion with the registers it
writes and, of a frame, an OUT that holds its bytes at offsets 0 … OUT_LEN − 1. -/
inductive Effect (s : State) : Instr → State → Prop
  | fault {i : Instr} (x : FaultCause) : Effect s i (enterFault s x)
  | schedule (k : Schedule) : Effect s .ksched (complete (writeSchedule s k) none)
  | block {i : Instr} (d : Option Block) (hframe : i.isFrame = false) : Effect s i (complete s d)
  | chain {i : Instr} (v : Block) (d : Option Block) (hframe : i.isFrame = false) (hchain : i ∈ chainWriters) :
      Effect s i (complete (writePrev s v) d)
  | frame {i : Instr} {m : Memory} {n : Nat} (hframe : i.isFrame = true) (hdense : Memory.dense m n) :
      Effect s i (completeFrame s m n)
  | chainFrame {i : Instr} {m : Memory} {n : Nat} (v : Block) (hframe : i.isFrame = true)
      (hchain : i ∈ chainWriters) (hdense : Memory.dense m n) : Effect s i (completeFrame (writePrev s v) m n)

/-- A command that completes does so in one of the shapes. -/
theorem completes_effect {i : Instr} {s t : State} (hc : Completes i s t) : Effect s i t := by
  cases i with
  | ksched => cases hc; exact .schedule _
  | blkE | blkD | ecbE | ecbD => cases hc; exact .block _ rfl
  | cbcInit => cases hc; exact .chain _ _ rfl (by decide)
  | cbcE | cbcD => obtain ⟨-, rfl⟩ := hc; exact .chain _ _ rfl (by decide)
  | frmEEcb =>
    obtain ⟨bs, hbs, rfl⟩ := hc
    exact .frame rfl (encryptedState_dense (mode := .ecb) hbs)
  | frmECbc =>
    obtain ⟨bs, hbs, rfl⟩ := hc
    exact .chainFrame _ rfl (by decide) (encryptedState_dense (mode := .cbc) hbs)
  | frmDEcb =>
    obtain ⟨n, c0, cs, hn, -, hcs, hfits, hfits', rfl⟩ := hc
    exact .frame rfl (decryptedState_dense (mode := .ecb) hn (readBlocks_length hcs) hfits hfits')
  | frmDCbc =>
    obtain ⟨n, c0, cs, hn, -, hcs, hfits, hfits', rfl⟩ := hc
    exact .chainFrame _ rfl (by decide) (decryptedState_dense (mode := .cbc) hn (readBlocks_length hcs) hfits hfits')

/-- A command that answers a next state ran from STATUS = 0 and left one of the shapes. -/
theorem exec_effect {i : Instr} {s t : State} (h : exec i s = .next t) : s.status = 0 ∧ Effect s i t := by
  obtain ⟨hrunning, ⟨x, rfl⟩ | hc⟩ := exec_next h
  · exact ⟨hrunning, .fault x⟩
  · exact ⟨hrunning, completes_effect hc⟩

/-- No cause has the code 0 (R113). -/
theorem faultCode_ne_zero (x : FaultCause) : faultCode x ≠ 0 := by cases x <;> simp [faultCode]

/-! ## The invariant -/

/-- Every cause's code is one of R113's. -/
theorem enterFault_statusLegal (s : State) (x : FaultCause) : (enterFault s x).statusLegal := by
  cases x <;> simp [State.statusLegal, faultCode]

/-- The fault entry establishes the invariant, whatever the state was. -/
theorem enterFault_inv (s : State) (x : FaultCause) : (enterFault s x).Inv :=
  ⟨enterFault_statusLegal s x, rfl, fun _ => ⟨rfl, rfl, rfl⟩, rfl⟩

/-- A state with STATUS = 0 and no cause meets the invariant when OUT holds exactly its bytes. -/
theorem inv_of_running {s : State} (hrunning : s.status = 0) (hinfo : s.info = none)
    (hdense : Memory.dense s.out s.outLen) : s.Inv :=
  ⟨.inl hrunning, by rw [State.infoAgrees, hrunning, hinfo], fun hfaulted => absurd hrunning hfaulted, hdense⟩

theorem hostReset_inv (p : Config.Params) (rest : List HostEvent) : (hostReset p rest).Inv :=
  inv_of_running rfl rfl rfl

/-- A command keeps the invariant: a completion leaves STATUS = 0 and either the OUT it found or its own frame. -/
theorem exec_inv {i : Instr} {s t : State} (hinv : s.Inv) (h : exec i s = .next t) : t.Inv := by
  obtain ⟨-, -, -, hdense⟩ := hinv
  obtain ⟨hrunning, heffect⟩ := exec_effect h
  cases heffect with
  | fault x => exact enterFault_inv s x
  | schedule k => exact inv_of_running hrunning rfl hdense
  | block d => exact inv_of_running hrunning rfl hdense
  | chain v d => exact inv_of_running hrunning rfl hdense
  | frame _ hframe => exact inv_of_running hrunning rfl hframe
  | chainFrame v _ _ hframe => exact inv_of_running hrunning rfl hframe

/-- Settles O58: idling changes nothing, a reset and an illegal word establish the invariant from any state, and a
command keeps it, because presenting it touches no field the invariant speaks of. -/
theorem everyStepKeepsTheInvariant : Obligations.EveryStepKeepsTheInvariant := by
  intro s t hinv h
  obtain ⟨-, -, rfl⟩ | ⟨rest, -, rfl⟩ | ⟨w, ops, rest, -, ⟨i, -, hexec⟩ | ⟨-, rfl⟩⟩ := step_next h
  · exact hinv
  · exact hostReset_inv s.params rest
  · exact exec_inv (s := present s rest ops) hinv hexec
  · exact enterFault_inv (present s rest ops) (.illegalCommand w)

/-- Settles O57: the reset state is what a reset leaves of a device with the default parameters and a host that
issues nothing; the idle port's empty IN holds its zero bytes. -/
theorem invariantHoldsAtReset : Obligations.InvariantHoldsAtReset :=
  ⟨hostReset_inv Config.defaults [], ⟨List.Pairwise.nil, fun _ => rfl⟩, fun _ hmem => (nomatch hmem)⟩

/-! ## Registers and ports -/

/-- Only KSCHED writes RK and RKV. -/
theorem effect_key {i : Instr} {s t : State} (heffect : Effect s i t) (hi : i ≠ .ksched) :
    t.rk = s.rk ∧ t.rkv = s.rkv := by
  cases heffect with
  | schedule k => exact absurd rfl hi
  | _ => exact ⟨rfl, rfl⟩

/-- Only the five CBC commands write PREV and PREVV. -/
theorem effect_chain {i : Instr} {s t : State} (heffect : Effect s i t) (hi : i ∉ chainWriters) :
    t.prev = s.prev ∧ t.prevv = s.prevv := by
  cases heffect with
  | chain v d _ hchain => exact absurd hchain hi
  | chainFrame v _ hchain => exact absurd hchain hi
  | _ => exact ⟨rfl, rfl⟩

/-- No command clears RKV: it stays, or KSCHED sets it. -/
theorem effect_keeps_rkv {i : Instr} {s t : State} (heffect : Effect s i t) (hset : s.rkv = true) : t.rkv = true := by
  cases heffect with
  | schedule k => rfl
  | _ => exact hset

/-- A command leaves PREV and PREVV alone or ends with PREVV = 1. -/
theorem effect_chain_or_prevv {i : Instr} {s t : State} (heffect : Effect s i t) :
    (t.prev = s.prev ∧ t.prevv = s.prevv) ∨ t.prevv = true := by
  cases heffect with
  | chain | chainFrame => exact .inr rfl
  | _ => exact .inl ⟨rfl, rfl⟩

/-- A command leaves the host's events and the operands alone. -/
theorem effect_ports {i : Instr} {s t : State} (heffect : Effect s i t) : t.host = s.host ∧ t.ops = s.ops := by
  cases heffect <;> exact ⟨rfl, rfl⟩

/-- What OUT is after a command that completes: a frame's own bytes, or what it was. -/
theorem effect_out {i : Instr} {s t : State} (heffect : Effect s i t) (hdone : t.status = 0) :
    (i.isFrame = false → t.out = s.out ∧ t.outLen = s.outLen) ∧
    (i.isFrame = true → Memory.dense t.out t.outLen) := by
  cases heffect with
  | fault x => exact absurd hdone (faultCode_ne_zero x)
  | schedule k => exact ⟨fun _ => ⟨rfl, rfl⟩, fun hf => (nomatch hf)⟩
  | block d hframe => exact ⟨fun _ => ⟨rfl, rfl⟩, fun hf => absurd hf (by simp [hframe])⟩
  | chain v d hframe => exact ⟨fun _ => ⟨rfl, rfl⟩, fun hf => absurd hf (by simp [hframe])⟩
  | frame hframe hdense => exact ⟨fun hf => absurd hf (by simp [hframe]), fun _ => hdense⟩
  | chainFrame v hframe _ hdense => exact ⟨fun hf => absurd hf (by simp [hframe]), fun _ => hdense⟩

/-- Settles O49, by the shapes of a command's effect. -/
theorem onlyKschedWritesRoundKeys : Obligations.OnlyKschedWritesRoundKeys := by
  intro i s t h hi
  obtain ⟨-, heffect⟩ := exec_effect h
  exact effect_key heffect hi

/-- Settles O50, by the shapes of a command's effect. -/
theorem onlyCbcCommandsWriteTheChain : Obligations.OnlyCbcCommandsWriteTheChain := by
  intro i s t h hi
  obtain ⟨-, heffect⟩ := exec_effect h
  exact effect_chain heffect hi

/-- Settles O51: the step idles, or enters the fault of an illegal word, which writes no register but STATUS, or
runs a command. -/
theorem validFlagsStaySet : Obligations.ValidFlagsStaySet := by
  intro s t h hreset
  obtain ⟨-, -, rfl⟩ | ⟨rest, hhost, -⟩ | ⟨w, ops, rest, -, ⟨i, -, hexec⟩ | ⟨-, rfl⟩⟩ := step_next h
  · exact ⟨id, id, fun hprev => absurd rfl hprev⟩
  · exact absurd hhost (hreset rest)
  · obtain ⟨-, heffect⟩ := exec_effect hexec
    refine ⟨effect_keeps_rkv (s := present s rest ops) heffect, ?_⟩
    obtain ⟨hprev, hprevv⟩ | hset := effect_chain_or_prevv heffect
    · exact ⟨hprevv.trans, fun hne => absurd hprev hne⟩
    · exact ⟨fun _ => hset, fun _ => hset⟩
  · exact ⟨id, id, fun hprev => absurd rfl hprev⟩

/-- Settles O55: OUT of a frame is dense, so a byte stands at exactly the offsets below OUT_LEN. -/
theorem commandsLeaveOtherBytesAlone : Obligations.CommandsLeaveOtherBytesAlone := by
  intro i s t h
  obtain ⟨-, heffect⟩ := exec_effect h
  obtain ⟨hhost, hops⟩ := effect_ports heffect
  refine ⟨hhost, hops, fun hdone hframe => ?_, fun hdone hframe a => ?_⟩
  · obtain ⟨hkept, -⟩ := effect_out heffect hdone
    obtain ⟨hout, hlen⟩ := hkept hframe
    exact ⟨hlen, fun a => by rw [hout]⟩
  · obtain ⟨-, hdense⟩ := effect_out heffect hdone
    exact dense_byteAt_isSome (hdense hframe) a

end Sys2Proof.Machine
end

section
/-! SUPPORT. Which changes of the state a command does not notice (spec 10_state.md R12 to R14, R18, R22 to R24): a
change is carried to the next state by a command that neither reads nor writes what is changed. -/

namespace Sys2Proof.Machine

/-- The change g touches nothing that command i reads, and what i writes does not meet it: g commutes with the
fault entry, with a completion and, where i makes them, with the register writes. A change of one field has most of
this by rfl, which is filled in. -/
structure Unnoticed (i : Instr) (g : State → State) : Prop where
  status : ∀ s, (g s).status = s.status := by exact fun _ => rfl
  rkv : ∀ s, (g s).rkv = s.rkv := by exact fun _ => rfl
  rk : ∀ s, (g s).rk = s.rk := by exact fun _ => rfl
  params : ∀ s, (g s).params = s.params := by exact fun _ => rfl
  key64 : ∀ s, (g s).ops.key64 = s.ops.key64 := by exact fun _ => rfl
  din : ∀ s, (g s).ops.din = s.ops.din := by exact fun _ => rfl
  inBuf : ∀ s, (g s).ops.inBuf = s.ops.inBuf := by exact fun _ => rfl
  inLen : ∀ s, (g s).ops.inLen = s.ops.inLen := by exact fun _ => rfl
  operands : i ∈ [.frmEEcb, .frmECbc] → ∀ s, (g s).ops = s.ops := by exact fun _ _ => rfl
  prev : i ∈ [.cbcE, .cbcD] → ∀ s, (g s).prev = s.prev := by exact fun _ _ => rfl
  prevv : i ∈ [.cbcE, .cbcD] → ∀ s, (g s).prevv = s.prevv := by exact fun _ _ => rfl
  fault : ∀ s x, enterFault (g s) x = g (enterFault s x) := by exact fun _ _ => rfl
  complete : ∀ s d, complete (g s) d = g (complete s d) := by exact fun _ _ => rfl
  completeFrame : ∀ s m n, completeFrame (g s) m n = g (completeFrame s m n) := by exact fun _ _ _ => rfl
  writeSchedule : ∀ s k, writeSchedule (g s) k = g (writeSchedule s k) := by exact fun _ _ => rfl
  writePrev : i ∈ chainWriters → ∀ s v, writePrev (g s) v = g (writePrev s v) := by exact fun _ _ _ => rfl

section
variable {i : Instr} {g : State → State} (h : Unnoticed i g) (s : State)
include h

theorem blockCommand_of_unnoticed (f : Schedule → Block → Block) :
    blockCommand (g s) f = mapNext g (blockCommand s f) :=
  blockCommand_mapNext (h.status s) (h.rkv s) (h.rk s) (h.din s) (h.fault s) (h.complete s)

theorem chainCommand_of_unnoticed {action : Action} (hread : i ∈ [.cbcE, .cbcD]) (hwrite : i ∈ chainWriters) :
    chainCommand (g s) action = mapNext g (chainCommand s action) :=
  chainCommand_mapNext (h.status s) (h.rkv s) (h.rk s) (h.din s) (h.prev hread s) (h.prevv hread s) (h.fault s)
    fun v d => by rw [h.writePrev hwrite, h.complete]

/-- A frame's completion commits the chain in CBC mode only. -/
theorem completeFrame_of_unnoticed {mode : Mode} (hwrite : mode = .cbc → i ∈ chainWriters) (v : Block) (m : Memory)
    (n : Nat) : completeFrame (commitChain mode (g s) v) m n = g (completeFrame (commitChain mode s v) m n) := by
  cases mode with
  | ecb => exact h.completeFrame s m n
  | cbc => rw [commitChain_cbc, commitChain_cbc, h.writePrev (hwrite rfl), h.completeFrame]

theorem frameEncrypt_of_unnoticed {mode : Mode} (hread : i ∈ [.frmEEcb, .frmECbc])
    (hwrite : mode = .cbc → i ∈ chainWriters) : frameEncrypt mode (g s) = mapNext g (frameEncrypt mode s) :=
  frameEncrypt_mapNext (h.status s) (h.rkv s) (h.rk s) (h.operands hread s) (h.params s) (h.fault s)
    (completeFrame_of_unnoticed h s hwrite)

theorem frameDecrypt_of_unnoticed {mode : Mode} (hwrite : mode = .cbc → i ∈ chainWriters) :
    frameDecrypt mode (g s) = mapNext g (frameDecrypt mode s) :=
  frameDecrypt_mapNext (h.status s) (h.rkv s) (h.rk s) (h.inBuf s) (h.inLen s) (h.params s) (h.fault s)
    (completeFrame_of_unnoticed h s hwrite)

/-- A command carries a change that it does not notice to its next state, and faults and refuses as without it. -/
theorem exec_of_unnoticed : exec i (g s) = mapNext g (exec i s) := by
  cases i with
  | ksched =>
    rw [exec, execKsched, opKey64, h.key64, h.writeSchedule, h.complete, ← mapNext_next,
      whenRunning_mapNext (h.status s)]
    rfl
  | cbcInit =>
    rw [exec, execCbcInit, h.params, h.writePrev (by decide), h.complete, ← mapNext_next,
      whenRunning_mapNext (h.status s)]
    rfl
  | blkE | blkD | ecbE | ecbD => exact blockCommand_of_unnoticed h s _
  | cbcE | cbcD => exact chainCommand_of_unnoticed h s (by decide) (by decide)
  | frmEEcb | frmECbc => exact frameEncrypt_of_unnoticed h s (by decide) (by decide)
  | frmDEcb | frmDCbc => exact frameDecrypt_of_unnoticed h s (by decide)

end

/-- Settles O53: none of the seven commands is one that reads or writes the chain. -/
theorem ecbCommandsIgnoreTheChain : Obligations.EcbCommandsIgnoreTheChain := by
  intro i s prev prevv hi
  refine exec_of_unnoticed (g := fun t => { t with prev := prev, prevv := prevv })
    { prev := fun hread => ?_, prevv := fun hread => ?_, writePrev := fun hwrite => ?_ } s
  all_goals exact absurd hi (by revert i; decide)

/-- Settles O54: the draws are operands that only the FRM.E commands read. -/
theorem onlyFrameEncryptionDraws : Obligations.OnlyFrameEncryptionDraws := by
  intro i s r pad hi
  exact exec_of_unnoticed (g := fun t => { t with ops := { t.ops with rand32 := r, pad := pad } })
    { operands := fun hdraws => absurd hdraws hi } s

/-- No command reads or writes the host's list. -/
theorem exec_ignores_host (i : Instr) (s : State) (rest : List HostEvent) :
    exec i { s with host := rest } = mapNext (fun t => { t with host := rest }) (exec i s) :=
  exec_of_unnoticed (g := fun t => { t with host := rest }) {} s

/-! ## The step on each kind of event -/

theorem step_of_reset {s : State} {rest : List HostEvent} (h : s.host = .reset :: rest) :
    step s = .next (hostReset s.params rest) := by
  rw [step, h]

theorem step_of_legalWord {s : State} {w : Byte} {ops : Operands} {rest : List HostEvent} {i : Instr}
    (h : s.host = .command w ops :: rest) (hw : decode w = .ok i) : step s = exec i (present s rest ops) := by
  simp only [step, h, hw]

theorem step_of_illegalWord {s : State} {w : Byte} {ops : Operands} {rest : List HostEvent} {e : IllegalWord}
    (h : s.host = .command w ops :: rest) (hw : decode w = .error e) :
    step s = rejectWord w (present s rest ops) := by
  simp only [step, h, hw]

/-- Settles O6: a reset step gives the reset state with the rest of the host's list. -/
theorem resetClearsFlagsAndStatus : Obligations.ResetClearsFlagsAndStatus :=
  ⟨⟨rfl, rfl, rfl⟩, fun s rest hhost => ⟨hostReset s.params rest, step_of_reset hhost, rfl, rfl, rfl, rfl⟩⟩

/-- Settles O9: a reset hands the list on; a command and the fault of an illegal word do not notice it. -/
theorem laterEventsDoNotMatter : Obligations.LaterEventsDoNotMatter := by
  intro s e rest rest'
  cases e with
  | reset => rw [step_of_reset rfl, step_of_reset rfl]; rfl
  | command w ops =>
    cases hw : decode w with
    | ok i =>
      rw [step_of_legalWord rfl hw, step_of_legalWord rfl hw]
      exact exec_ignores_host i (present s rest ops) rest'
    | error e =>
      rw [step_of_illegalWord rfl hw, step_of_illegalWord rfl hw]
      exact whenRunning_mapNext (g := fun t => { t with host := rest' }) (s := present s rest ops)
        (k := raise (present s rest ops) (.illegalCommand w)) rfl

/-! ## Without a key, without a chain -/

/-- A command that reads RK applies KeyNotLoaded's test first of all once CORE runs (R115). -/
theorem exec_readsKey {i : Instr} (hi : i.readsKey = true) (s : State) :
    ∃ k, exec i s = whenRunning s (withKey s k) := by
  cases i with
  | ksched | cbcInit => cases hi
  | _ => exact ⟨_, rfl⟩

theorem exec_of_unloaded {i : Instr} {s : State} (hi : i.readsKey = true) (hkey : s.rkv = false) :
    exec i s = whenRunning s (.next (enterFault s .keyNotLoaded)) := by
  obtain ⟨k, hexec⟩ := exec_readsKey hi s
  rw [hexec, withKey_of_unloaded k hkey]

theorem chainCommand_of_invalid {action : Action} {s : State} (hchain : s.prevv = false) :
    chainCommand s action = whenRunning s (withKey s (.next (enterFault s .chainNotInitialised))) := by
  rw [chainCommand, withChain_of_invalid _ hchain]

/-- Settles O44: the ten enter the fault entry of KeyNotLoaded, the other two run their one completion. -/
theorem keyNotLoadedFault : Obligations.KeyNotLoadedFault := by
  intro i s hrunning hkey
  refine ⟨fun hi => ⟨enterFault s .keyNotLoaded, ?_, rfl, rfl, rfl, rfl, rfl, rfl⟩, fun hi => ?_⟩
  · rw [exec_of_unloaded hi hkey, whenRunning_of_running _ hrunning]
  · cases i with
    | ksched | cbcInit => exact ⟨_, whenRunning_of_running _ hrunning, hrunning⟩
    | _ => cases hi

/-- While RKV = 0 what RK holds bears on no command but KSCHED: the ten that read RK raise KeyNotLoaded. -/
theorem exec_ignores_unloaded_rk {i : Instr} {s : State} (hkey : s.rkv = false) (hi : i ≠ .ksched) (k : Schedule) :
    exec i { s with rk := k } = mapNext (fun t => { t with rk := k }) (exec i s) := by
  cases hreads : i.readsKey with
  | true =>
    rw [exec_of_unloaded hreads hkey, exec_of_unloaded (s := { s with rk := k }) hreads hkey]
    exact whenRunning_mapNext (g := fun t => { t with rk := k }) (k := .next (enterFault s .keyNotLoaded)) rfl
  | false =>
    cases i with
    | ksched => exact absurd rfl hi
    | cbcInit =>
      exact whenRunning_mapNext (g := fun t => { t with rk := k }) (s := s)
        (k := .next (complete (writePrev s s.params.iv) none)) rfl
    | _ => cases hreads

/-- While PREVV = 0 a CBC command on one block faults, so it does not notice PREV. -/
theorem chainCommand_ignores_invalid_prev {action : Action} {s : State} (hchain : s.prevv = false) (v : Block) :
    chainCommand { s with prev := v } action = mapNext (fun t => { t with prev := v }) (chainCommand s action) := by
  rw [chainCommand_of_invalid hchain, chainCommand_of_invalid (s := { s with prev := v }) hchain,
    ← whenRunning_mapNext (by rfl), ← withKey_mapNext (by rfl) fun _ => rfl]
  rfl

/-- While PREVV = 0 what PREV holds bears on no command but the three that write PREV first. -/
theorem exec_ignores_invalid_prev {i : Instr} {s : State} (hchain : s.prevv = false)
    (hi : i ∉ [.cbcInit, .frmECbc, .frmDCbc]) (v : Block) :
    exec i { s with prev := v } = mapNext (fun t => { t with prev := v }) (exec i s) := by
  cases i with
  | cbcInit | frmECbc | frmDCbc => exact absurd (by decide) hi
  | cbcE | cbcD => exact chainCommand_ignores_invalid_prev hchain v
  | _ =>
    exact exec_of_unnoticed (g := fun t => { t with prev := v })
      { prev := fun hread => absurd hread (by decide), writePrev := fun hwrite => absurd hwrite (by decide) } s

/-! ## PREV under a CBC frame -/

/-- The state with v in PREV where it is FAULTED, and as it is where STATUS = 0. -/
def State.withPrevIfFaulted (v : Block) (t : State) : State := if t.status = 0 then t else { t with prev := v }

section
variable {s : State} {v : Block} {k k' : Result}

/-- A fault entry leaves the other PREV. -/
theorem raise_otherPrev (x : FaultCause) :
    raise { s with prev := v } x = mapNext (State.withPrevIfFaulted v) (raise s x) :=
  congrArg Host.Outcome.next (if_neg (faultCode_ne_zero x)).symm

/-- A CBC frame that completes has overwritten the other PREV. -/
theorem completeFrame_otherPrev (hrunning : s.status = 0) (w : Block) (m : Memory) (n : Nat) :
    completeFrame (commitChain .cbc { s with prev := v } w) m n =
      State.withPrevIfFaulted v (completeFrame (commitChain .cbc s w) m n) :=
  (if_pos hrunning).symm

theorem whenRunning_otherPrev (h : s.status = 0 → k' = mapNext (State.withPrevIfFaulted v) k) :
    whenRunning { s with prev := v } k' = mapNext (State.withPrevIfFaulted v) (whenRunning s k) := by
  unfold whenRunning
  split
  · exact h ‹_›
  · rfl

theorem withKey_otherPrev (h : k' = mapNext (State.withPrevIfFaulted v) k) :
    withKey { s with prev := v } k' = mapNext (State.withPrevIfFaulted v) (withKey s k) := by
  unfold withKey
  split
  · exact h
  · exact raise_otherPrev _

/-- A test that raises where its condition holds: the shape of the tests of the framing codec. -/
theorem ite_raise_otherPrev {c : Prop} [Decidable c] (x : FaultCause)
    (h : k' = mapNext (State.withPrevIfFaulted v) k) :
    (if c then raise { s with prev := v } x else k') =
      mapNext (State.withPrevIfFaulted v) (if c then raise s x else k) := by
  split
  · exact raise_otherPrev x
  · exact h

theorem withSize_otherPrev (h : k' = mapNext (State.withPrevIfFaulted v) k) :
    withSize { s with prev := v } k' = mapNext (State.withPrevIfFaulted v) (withSize s k) :=
  ite_raise_otherPrev _ h

theorem withAlignment_otherPrev (h : k' = mapNext (State.withPrevIfFaulted v) k) :
    withAlignment { s with prev := v } k' = mapNext (State.withPrevIfFaulted v) (withAlignment s k) :=
  ite_raise_otherPrev _ h

theorem withFormat_otherPrev {hdr : Block} {lh payload : Nat} (h : k' = mapNext (State.withPrevIfFaulted v) k) :
    withFormat { s with prev := v } hdr lh payload k' =
      mapNext (State.withPrevIfFaulted v) (withFormat s hdr lh payload k) :=
  ite_raise_otherPrev _ (ite_raise_otherPrev _ h)

theorem frameEncrypt_cbc_otherPrev :
    frameEncrypt .cbc { s with prev := v } = mapNext (State.withPrevIfFaulted v) (frameEncrypt .cbc s) := by
  refine whenRunning_otherPrev fun hrunning => withKey_otherPrev (withSize_otherPrev ?_)
  simp only [opInLen, dataBlocks_congr (s := s) (s' := { s with prev := v }) rfl]
  cases dataBlocks s 1 (dataBlockCount s.ops.inLen.toNat) with
  | none => rfl
  | some bs => exact congrArg Host.Outcome.next (completeFrame_otherPrev hrunning _ _ _)

theorem frameBody_cbc_otherPrev (hrunning : s.status = 0) (hdr w : Block) :
    frameBody .cbc { s with prev := v } hdr w = mapNext (State.withPrevIfFaulted v) (frameBody .cbc s hdr w) := by
  simp only [frameBody, opInLen, readBlocks_congr (s := s) (s' := { s with prev := v }) rfl]
  cases readBlocks s 8 ((s.ops.inLen.toNat - 8) / 8) with
  | none => rfl
  | some cs => exact congrArg Host.Outcome.next (completeFrame_otherPrev hrunning _ _ _)

theorem frameDecrypt_cbc_otherPrev :
    frameDecrypt .cbc { s with prev := v } = mapNext (State.withPrevIfFaulted v) (frameDecrypt .cbc s) := by
  refine whenRunning_otherPrev fun hrunning => withKey_otherPrev (withSize_otherPrev (withAlignment_otherPrev ?_))
  simp only [opMemRead]
  cases memRead s.ops.inBuf 0 8 with
  | none => rfl
  | some c0 => exact withFormat_otherPrev (frameBody_cbc_otherPrev hrunning _ _)

end

/-- Settles O52: what is not valid is never read, because the tests of R115 come first, and a CBC frame starts from
IV. -/
theorem unwrittenRegistersAreNotRead : Obligations.UnwrittenRegistersAreNotRead := by
  intro i s k v
  refine ⟨fun hkey hi => exec_ignores_unloaded_rk hkey hi k, rfl,
    fun hchain hi => exec_ignores_invalid_prev hchain hi v, rfl, fun hi => ?_⟩
  cases i with
  | frmECbc => exact frameEncrypt_cbc_otherPrev
  | frmDCbc => exact frameDecrypt_cbc_otherPrev
  | _ => exact absurd hi (by decide)

end Sys2Proof.Machine
end

section
/-! SUPPORT. MemRead and MemWrite byte by byte (spec 20_memory.md R31, R32). -/

namespace Sys2Proof.Machine

/-- MemRead of n bytes answers an 8n-bit value. -/
theorem memRead_toNat_lt {m : Memory} {a n : Nat} {v : Block} (h : memRead m a n = some v) :
    v.toNat < 2 ^ (8 * n) := by
  obtain ⟨bs, hbs, rfl⟩ := Option.map_eq_some_iff.mp h
  obtain ⟨hlen, -⟩ := (readBytes_eq_some _ _ _ _).mp hbs
  calc (beValue bs).toNat ≤ spell bs := by
        rw [beValue_eq, BitVec.toNat_ofNat]; exact Nat.mod_le _ _
    _ < 256 ^ bs.length := spell_lt bs
    _ = 2 ^ (8 * n) := by rw [hlen, Nat.pow_mul]

/-- A byte after MemWrite: one of the value's bytes inside the n offsets, the old byte outside. -/
theorem byteAt_memWrite (m : Memory) (a n : Nat) (v : Block) (x : Nat) :
    byteAt (memWrite m a n v) x = if a ≤ x ∧ x < a + n then (beBytes n v)[x - a]? else byteAt m x := by
  rw [memWrite, byteAt_writeBytes, beBytes_length]

/-- Settles O17: a read spells the bytes it finds, so it also bounds its answer; a write puts the bytes of the value
at its n offsets and no byte elsewhere. -/
theorem memoryIsBigEndian : Obligations.MemoryIsBigEndian := by
  intro m a n v hn
  refine ⟨fun _ => ⟨fun hread => ?_, fun ⟨hv, hbytes⟩ => (memRead_eq_some hn hv).mpr hbytes⟩,
    fun i hi => ?_, fun x hx => ?_⟩
  · have hv := memRead_toNat_lt hread
    exact ⟨hv, (memRead_eq_some hn hv).mp hread⟩
  · rw [byteAt_memWrite, if_pos (by omega), Nat.add_sub_cancel_left, beBytes_getElem? n v i hi]
  · rw [byteAt_memWrite, if_neg (by omega)]

end Sys2Proof.Machine
end

section
/-! SUPPORT. The step on a command word, legal or illegal (spec 30_encoding.md R40, R43, 60_exceptions.md R113). -/

namespace Sys2Proof.Machine

/-- Settles O4: step_of_legalWord is the statement. -/
theorem stepRunsDecodedCommand : Obligations.StepRunsDecodedCommand :=
  fun _ _ _ _ _ hhost hw => step_of_legalWord hhost hw

/-- The groups of R43's table, on each of the 256 words. -/
theorem decode_error_iff (w : Byte) :
    (decode w = .error .kschedBits ↔ w = 0x01 ∨ w = 0x02 ∨ w = 0x03) ∧
    (decode w = .error .blkMode ↔ w = 0x06 ∨ w = 0x07) ∧
    (decode w = .error .cinitBits ↔ w = 0x08 ∨ w = 0x09 ∨ w = 0x0B) ∧
    (decode w = .error .reservedOp ↔ 0x14 ≤ w.toNat ∧ w.toNat ≤ 0x1F) ∧
    (decode w = .error .reservedZero ↔ 0x20 ≤ w.toNat) := by
  revert w
  decide +kernel

theorem illegalWords_count : ((List.range 256).filter (fun n => (decodeTableWord 8 n).isNone)).length = 244 := by
  decide +kernel

/-- While CORE runs, an illegal word ends in the fault entry of IllegalCommand. -/
theorem rejectWord_of_running {s : State} (w : Byte) (hrunning : s.status = 0) :
    rejectWord w s = .next (enterFault s (.illegalCommand w)) :=
  whenRunning_of_running _ hrunning

/-- The fault entry is what it is to raise a cause. -/
theorem raised_enterFault (s : State) (x : FaultCause) : s.raised x (enterFault s x) :=
  ⟨rfl, rfl, rfl, rfl, rfl⟩

/-- Settles O3: the groups are read off the 256 words, and the step presents the word and enters its fault, which
leaves the port and the rest of the list as presented. -/
theorem illegalWordsRaiseIllegalCommand : Obligations.IllegalWordsRaiseIllegalCommand := by
  refine ⟨decode_error_iff, illegalWords_count, fun s w ops rest e hhost hw hrunning => ?_⟩
  refine ⟨enterFault (present s rest ops) (.illegalCommand w), ?_, rfl,
    raised_enterFault (present s rest ops) (.illegalCommand w), rfl, rfl⟩
  rw [step_of_illegalWord hhost hw, rejectWord_of_running w (s := present s rest ops) hrunning]

end Sys2Proof.Machine
end

section
/-! SUPPORT. When a command is refused: only where IN lacks a byte that the command reads (spec 20_memory.md R26, R31,
log 5). -/

namespace Sys2Proof.Machine

/-! ## Reads inside a dense IN -/

/-- A range that lies inside a dense buffer can be read. -/
theorem dense_readBytes {m : Memory} {len a n : Nat} (h : Memory.dense m len) (hrange : a + n ≤ len) :
    ∃ bs, readBytes m a n = some bs :=
  readBytes_isSome fun i hi => (dense_byteAt_isSome h (a + i)).mpr (by omega)

theorem dense_memRead {m : Memory} {len a n : Nat} (h : Memory.dense m len) (hrange : a + n ≤ len) :
    ∃ v, memRead m a n = some v := by
  obtain ⟨bs, hbs⟩ := dense_readBytes h hrange
  exact ⟨beValue bs, by rw [memRead, hbs, Option.map_some]⟩

/-- Every data block that starts inside a dense IN can be formed, whole or from the tail and the draws. -/
theorem dense_dataBlock {s : State} {j : Nat} (h : Memory.dense s.ops.inBuf s.ops.inLen.toNat)
    (hstart : 8 * (j - 1) ≤ s.ops.inLen.toNat) : ∃ b, dataBlock s j = some b := by
  by_cases hfull : 8 * (j - 1) + 8 ≤ s.ops.inLen.toNat
  · rw [dataBlock_of_full hfull]
    exact dense_memRead h hfull
  · obtain ⟨tail, htail⟩ := dense_readBytes (a := 8 * (j - 1)) (n := s.ops.inLen.toNat - 8 * (j - 1)) h (by omega)
    rw [dataBlock_of_tail hfull, htail]
    exact ⟨_, rfl⟩

theorem dense_dataBlocks {s : State} (h : Memory.dense s.ops.inBuf s.ops.inLen.toNat) :
    ∃ bs, dataBlocks s 1 (dataBlockCount s.ops.inLen.toNat) = some bs :=
  dataBlocks_isSome fun u hu => dense_dataBlock h (by rw [dataBlockCount] at hu; omega)

theorem dense_readBlocks {s : State} {len a n : Nat} (h : Memory.dense s.ops.inBuf len) (hrange : a + 8 * n ≤ len) :
    ∃ cs, readBlocks s a n = some cs := by
  induction n generalizing a with
  | zero => exact ⟨[], rfl⟩
  | succ n ih =>
    obtain ⟨b, hb⟩ := dense_memRead (a := a) (n := 8) h (by omega)
    obtain ⟨bs, hbs⟩ := ih (a := a + 8) (by omega)
    exact ⟨b :: bs, by simp [readBlocks, opMemRead, hb, hbs]⟩

/-! ## A refusal, test by test -/

section
variable {s : State} {k : Result} {r : Refusal}

/-- No test refuses: a refusal comes from the rest of the command, after the test has passed. -/
theorem whenRunning_refused : whenRunning s k = .refused r ↔ s.status = 0 ∧ k = .refused r := by
  by_cases h : s.status = 0
  · simp [whenRunning_of_running k h, h]
  · rw [whenRunning_of_faulted k h]
    exact ⟨fun hk => (nomatch hk), fun ⟨hrunning, _⟩ => absurd hrunning h⟩

theorem withKey_refused : withKey s k = .refused r ↔ s.rkv = true ∧ k = .refused r := by
  cases h : s.rkv
  · simp [withKey_of_unloaded k h]
  · simp [withKey_of_loaded k h]

theorem withChain_refused : withChain s k = .refused r ↔ s.prevv = true ∧ k = .refused r := by
  cases h : s.prevv
  · simp [withChain_of_invalid k h]
  · simp [withChain_of_valid k h]

theorem withSize_refused :
    withSize s k = .refused r ↔ s.ops.inLen.toNat ≤ s.params.maxLen.toNat ∧ k = .refused r := by
  by_cases h : s.ops.inLen.toNat ≤ s.params.maxLen.toNat
  · simp [withSize_of_within k h, h]
  · simp [withSize_of_over k (Nat.lt_of_not_le h), h]

theorem withAlignment_refused :
    withAlignment s k = .refused r ↔ (∃ n, s.ops.inLen.toNat = 8 * (n + 1)) ∧ k = .refused r := by
  by_cases h : ∃ n, s.ops.inLen.toNat = 8 * (n + 1)
  · obtain ⟨n, hn⟩ := h
    rw [withAlignment_of_aligned k hn]
    exact ⟨fun hk => ⟨⟨n, hn⟩, hk⟩, And.right⟩
  · simp [withAlignment_of_misaligned k fun n hn => h ⟨n, hn⟩, h]

theorem withFormat_refused {hdr : Block} {lh payload : Nat} :
    withFormat s hdr lh payload k = .refused r ↔ (lh ≤ payload ∧ payload - lh < 8) ∧ k = .refused r := by
  by_cases h : lh ≤ payload ∧ payload - lh < 8
  · simp [withFormat_of_fits k h.1 h.2, h]
  · rw [withFormat_of_misfit k (by omega)]
    simp [h]

/-! ## A refusal of a command -/

theorem blockCommand_not_refused (f : Schedule → Block → Block) : blockCommand s f ≠ .refused r := by
  simp [blockCommand, whenRunning_refused, withKey_refused]

theorem chainCommand_not_refused (action : Action) : chainCommand s action ≠ .refused r := by
  simp [chainCommand, whenRunning_refused, withKey_refused, withChain_refused]

/-- FRM.E refuses only within MAXLEN and where a data block lacks a byte. -/
theorem frameEncrypt_refused {mode : Mode} (h : frameEncrypt mode s = .refused r) :
    s.ops.inLen.toNat ≤ s.params.maxLen.toNat ∧ dataBlocks s 1 (dataBlockCount s.ops.inLen.toNat) = none := by
  rw [frameEncrypt, whenRunning_refused, withKey_refused, withSize_refused] at h
  obtain ⟨-, -, hsize, h⟩ := h
  cases hbs : dataBlocks s 1 (dataBlockCount s.ops.inLen.toNat) with
  | none => exact ⟨hsize, rfl⟩
  | some bs => simp [opInLen, hbs] at h

/-- FRM.D refuses only within MAXLEN, on an aligned IN, and where the header or a data block lacks a byte. -/
theorem frameDecrypt_refused {mode : Mode} (h : frameDecrypt mode s = .refused r) :
    s.ops.inLen.toNat ≤ s.params.maxLen.toNat ∧ ∃ n, s.ops.inLen.toNat = 8 * (n + 1) ∧
      (memRead s.ops.inBuf 0 8 = none ∨ readBlocks s 8 n = none) := by
  rw [frameDecrypt, whenRunning_refused, withKey_refused, withSize_refused, withAlignment_refused] at h
  obtain ⟨-, -, hsize, ⟨n, hn⟩, h⟩ := h
  refine ⟨hsize, n, hn, ?_⟩
  cases hhdr : memRead s.ops.inBuf 0 8 with
  | none => exact .inl rfl
  | some c0 =>
    have hcount : (opInLen s - 8) / 8 = n := by rw [opInLen]; omega
    simp only [opMemRead, hhdr, withFormat_refused, frameBody, hcount] at h
    cases hcs : readBlocks s 8 n with
    | none => exact .inr rfl
    | some cs => simp [hcs] at h

end

/-- On a well-formed IN no FRM.E command is refused: its data blocks all start inside IN. -/
theorem frameEncrypt_not_refused {mode : Mode} {s : State} {r : Refusal} (hwf : Operands.wf s.params s.ops) :
    frameEncrypt mode s ≠ .refused r := by
  intro h
  obtain ⟨hsize, hnone⟩ := frameEncrypt_refused h
  obtain ⟨bs, hbs⟩ := dense_dataBlocks (hwf.2 hsize)
  rw [hbs] at hnone
  cases hnone

/-- On a well-formed IN no FRM.D command is refused: the header and the n blocks after it fill IN. -/
theorem frameDecrypt_not_refused {mode : Mode} {s : State} {r : Refusal} (hwf : Operands.wf s.params s.ops) :
    frameDecrypt mode s ≠ .refused r := by
  intro h
  obtain ⟨hsize, n, hn, hnone⟩ := frameDecrypt_refused h
  have hdense := hwf.2 hsize
  obtain ⟨c0, hc0⟩ := dense_memRead (a := 0) (n := 8) hdense (by omega)
  obtain ⟨cs, hcs⟩ := dense_readBlocks (a := 8) (n := n) hdense (by omega)
  simp [hc0, hcs] at hnone

theorem exec_not_refused {s : State} (hwf : Operands.wf s.params s.ops) (i : Instr) (r : Refusal) :
    exec i s ≠ .refused r := by
  cases i with
  | ksched | cbcInit => exact fun h => nomatch (whenRunning_refused.mp h).2
  | blkE | blkD | ecbE | ecbD => exact blockCommand_not_refused _
  | cbcE | cbcD => exact chainCommand_not_refused _
  | frmEEcb | frmECbc => exact frameEncrypt_not_refused hwf
  | frmDEcb | frmDCbc => exact frameDecrypt_not_refused hwf

/-! ## A refusal of a step, and the host's side -/

/-- A step is refused only by the command it runs: idling, a reset and an illegal word are never refused. -/
theorem step_refused {s : State} {r : Refusal} (h : step s = .refused r) :
    ∃ w ops rest i, s.host = .command w ops :: rest ∧ exec i (present s rest ops) = .refused r := by
  cases hhost : s.host with
  | nil =>
    rw [step, hhost] at h
    exact nomatch (whenRunning_refused.mp h).2
  | cons e rest =>
    cases e with
    | reset => rw [step_of_reset hhost] at h; cases h
    | command w ops =>
      cases hw : decode w with
      | ok i => exact ⟨w, ops, rest, i, rfl, step_of_legalWord hhost hw ▸ h⟩
      | error e =>
        rw [step_of_illegalWord hhost hw] at h
        exact nomatch (whenRunning_refused.mp h).2

/-- The idle port holds an empty IN of length 0. -/
theorem idle_wf (p : Config.Params) : Operands.wf p Operands.idle := ⟨List.Pairwise.nil, fun _ => rfl⟩

/-- Presenting a well-formed command leaves a well-formed host side. -/
theorem present_hostWf {s : State} {w : Byte} {ops : Operands} {rest : List HostEvent} (hwf : s.hostWf)
    (hhost : s.host = .command w ops :: rest) : (present s rest ops).hostWf := by
  obtain ⟨-, hevents⟩ := hwf
  rw [hhost, List.forall_mem_cons] at hevents
  exact hevents

theorem hostReset_hostWf {s : State} {rest : List HostEvent} (hwf : s.hostWf) (hhost : s.host = .reset :: rest) :
    (hostReset s.params rest).hostWf := by
  obtain ⟨-, hevents⟩ := hwf
  rw [hhost, List.forall_mem_cons] at hevents
  exact ⟨idle_wf s.params, hevents.2⟩

/-- A command leaves the port, the list and the parameters alone, so it keeps the host side well-formed. -/
theorem exec_hostWf {i : Instr} {s t : State} (hwf : s.hostWf) (h : exec i s = .next t) : t.hostWf := by
  obtain ⟨-, heffect⟩ := exec_effect h
  obtain ⟨hhost, hops⟩ := effect_ports heffect
  rwa [State.hostWf, hhost, hops, exec_params h]

theorem step_hostWf {s t : State} (hwf : s.hostWf) (h : step s = .next t) : t.hostWf := by
  obtain ⟨-, -, rfl⟩ | ⟨rest, hhost, rfl⟩ | ⟨w, ops, rest, hhost, ⟨i, -, hexec⟩ | ⟨-, rfl⟩⟩ := step_next h
  · exact hwf
  · exact hostReset_hostWf hwf hhost
  · exact exec_hostWf (present_hostWf hwf hhost) hexec
  · exact present_hostWf (s := s) hwf hhost

/-- Settles O56: a step is refused only by a command, and the command it runs stands on a well-formed port. -/
theorem noRefusalOnWellFormedOperands : Obligations.NoRefusalOnWellFormedOperands := by
  refine ⟨fun i s r hwf => exec_not_refused hwf i r, fun s hwf => ⟨fun r h => ?_, fun t h => step_hostWf hwf h⟩⟩
  obtain ⟨w, ops, rest, i, hhost, hexec⟩ := step_refused h
  obtain ⟨hport, -⟩ := present_hostWf hwf hhost
  exact exec_not_refused hport i r hexec

end Sys2Proof.Machine
end

section
/-! SUPPORT. The decoder and the encoder as inverses, field by field (spec 30_encoding.md R41, R42). -/

namespace Sys2Proof

/-- The word whose fields are ZERO OP M A (R41). -/
def wordOf (f : CmdFields) : Byte :=
  f.zero ++ f.op ++ BitVec.ofBool (f.mode == .cbc) ++ BitVec.ofBool (f.action == .decrypt)

/-- The four fields hold all eight bits of a word. -/
theorem wordOf_fieldsOf (w : Byte) : wordOf (fieldsOf w) = w := by
  revert w
  decide +kernel

theorem decode_encode (i : Instr) : decode (encode i) = .ok i := by
  cases i <;> rfl

/-- A command decoded from fields is encoded with these fields: ZERO and OP are fixed by the group that answered, and
each group answers a command for one choice of M and A only. -/
theorem encode_of_decodeFields {f : CmdFields} {i : Instr} (h : decodeFields f = .ok i) : encode i = wordOf f := by
  obtain ⟨zero, op, mode, action⟩ := f
  rw [decodeFields] at h
  split at h
  · cases h
  next hzero =>
    obtain rfl : zero = 0 := not_not.mp hzero
    split at h
    case h_6 => cases h
    all_goals
      rename_i hop
      obtain ⟨-, rfl⟩ := BitVec.toNat_eq_nat.mp hop
      cases mode <;> cases action <;> cases h <;> rfl

theorem encode_of_decode {w : Byte} {i : Instr} (h : decode w = .ok i) : encode i = w :=
  (encode_of_decodeFields h).trans (wordOf_fieldsOf w)

/-- Settles O1: each word of the map is the encoder's word of its command. -/
theorem opcodeMapDecodes : Obligations.OpcodeMapDecodes :=
  ⟨decode_encode .ksched, decode_encode .blkE, decode_encode .blkD, decode_encode .cbcInit, decode_encode .ecbE,
    decode_encode .ecbD, decode_encode .cbcE, decode_encode .cbcD, decode_encode .frmEEcb, decode_encode .frmDEcb,
    decode_encode .frmECbc, decode_encode .frmDCbc⟩

/-- Settles O2: the encoder's words decode to their commands, and no bit of a word is lost in its fields. -/
theorem decodeInvertsEncode : Obligations.DecodeInvertsEncode :=
  ⟨decode_encode, fun _ _ h => encode_of_decode h⟩

end Sys2Proof
end

section
/-! SUPPORT. Key text (spec 30_encoding.md R51): characters and hex digits as places of a block, and the shapes of
keyOfText by length. -/

namespace Sys2Proof.Machine

/-! ## Characters -/

/-- Printable characters are packed as the bytes they are. -/
theorem packChars_of_printable {cs : List Byte} (h : ∀ c ∈ cs, 0x20 ≤ c.toNat ∧ c.toNat ≤ 0x7E) :
    packChars cs = some (beValue cs) :=
  if_pos (List.all_eq_true.mpr fun c hc => decide_eq_true (h c hc))

/-- Byte i of eight bytes stands at bits 63 − 8i to 56 − 8i of their value. -/
theorem beValue_byte {cs : List Byte} (hlen : cs.length = 8) {i : Nat} (hi : i < 8) :
    some ((beValue cs).extractLsb' (56 - 8 * i) 8) = cs[i]? := by
  have hbytes : beBytes 8 (beValue cs) = cs := hlen ▸ beBytes_beValue (Nat.le_of_eq hlen)
  have hplace : 56 - 8 * i = 8 * (8 - 1 - i) := by omega
  rw [hplace, ← beBytes_getElem? 8 (beValue cs) i hi, hbytes]

/-! ## Hex digits -/

/-- The number that hex digits spell, the first most significant. -/
def hexNumber (ds : List (BitVec 4)) : Nat := ds.foldl (fun acc d => 16 * acc + d.toNat) 0

theorem packHex_eq (ds : List (BitVec 4)) : packHex ds = BitVec.ofNat 64 (hexNumber ds) := rfl

theorem hexNumber_concat (ds : List (BitVec 4)) (d : BitVec 4) :
    hexNumber (ds ++ [d]) = 16 * hexNumber ds + d.toNat := by
  simp [hexNumber, List.foldl_append]

/-- Digit i of n digits counts 16 ^ (n − 1 − i). -/
theorem hexNumber_digit (ds : List (BitVec 4)) (i : Nat) (h : i < ds.length) :
    hexNumber ds / 16 ^ (ds.length - 1 - i) % 16 = ds[i].toNat := by
  induction ds using List.reverseRecOn with
  | nil => cases h
  | append_singleton ds d ih =>
    have hd := d.isLt
    rw [List.length_append, List.length_singleton] at h
    rw [hexNumber_concat, List.length_append, List.length_singleton, Nat.add_sub_cancel]
    by_cases hi : i < ds.length
    · have hplace : ds.length - i = ds.length - 1 - i + 1 := by omega
      have hdrop : (16 * hexNumber ds + d.toNat) / 16 = hexNumber ds := by omega
      rw [List.getElem_append_left hi, ← ih hi, hplace, Nat.pow_succ', ← Nat.div_div_eq_div_mul, hdrop]
    · obtain rfl : i = ds.length := by omega
      simp only [Nat.sub_self, Nat.pow_zero, Nat.div_one, List.getElem_concat_length]
      omega

/-- Four bits inside a block are those of the number it was made from. -/
theorem extractLsb'_ofNat_toNat (n k : Nat) (h : k + 4 ≤ 64) :
    ((BitVec.ofNat 64 n).extractLsb' k 4).toNat = n / 2 ^ k % 16 := by
  have hsplit : 2 ^ 64 = 2 ^ k * 2 ^ (64 - k) := by rw [← Nat.pow_add]; congr 1; omega
  rw [BitVec.extractLsb'_toNat, BitVec.toNat_ofNat, Nat.shiftRight_eq_div_pow, hsplit, Nat.mod_mul_right_div_self,
    Nat.mod_mod_of_dvd _ (Nat.pow_dvd_pow 2 (by omega))]

/-- Digit i of sixteen stands at bits 63 − 4i to 60 − 4i of the key. -/
theorem packHex_digit {ds : List (BitVec 4)} (hlen : ds.length = 16) {i : Nat} (hi : i < 16) :
    some ((packHex ds).extractLsb' (60 - 4 * i) 4) = ds[i]? := by
  have hplace : 2 ^ (60 - 4 * i) = 16 ^ (ds.length - 1 - i) := by
    rw [show 16 = 2 ^ 4 by rfl, ← Nat.pow_mul]; congr 1; omega
  rw [List.getElem?_eq_getElem (hlen ▸ hi)]
  congr 1
  apply BitVec.eq_of_toNat_eq
  rw [packHex_eq, extractLsb'_ofNat_toNat _ _ (by omega), hplace, hexNumber_digit]

/-- The characters of R51's three ranges are hex digits. -/
theorem hexDigit_of_range {c : Byte} (h : (0x30 ≤ c.toNat ∧ c.toNat ≤ 0x39) ∨ (0x61 ≤ c.toNat ∧ c.toNat ≤ 0x66) ∨
    (0x41 ≤ c.toNat ∧ c.toNat ≤ 0x46)) : ∃ d, hexDigit c = some d := by
  unfold hexDigit
  split_ifs
  · exact ⟨_, rfl⟩
  · exact ⟨_, rfl⟩
  · exact ⟨_, rfl⟩
  · omega

/-- The value of a hex digit, by its range. -/
theorem hexDigit_value {c : Byte} {d : BitVec 4} (h : hexDigit c = some d) :
    (0x30 ≤ c.toNat ∧ c.toNat ≤ 0x39 → d.toNat = c.toNat - 0x30) ∧
    (0x61 ≤ c.toNat ∧ c.toNat ≤ 0x66 → d.toNat = c.toNat - 0x61 + 10) ∧
    (0x41 ≤ c.toNat ∧ c.toNat ≤ 0x46 → d.toNat = c.toNat - 0x41 + 10) := by
  unfold hexDigit at h
  split_ifs at h <;> cases h <;> rw [BitVec.toNat_ofNat] <;> omega

/-- A text of hex digits is the list of their values. -/
theorem hexDigits_of_digits {cs : List Byte} (h : ∀ c ∈ cs, ∃ d, hexDigit c = some d) :
    ∃ ds, hexDigits cs = some ds ∧ ds.map some = cs.map hexDigit := by
  induction cs with
  | nil => exact ⟨[], rfl, rfl⟩
  | cons c cs ih =>
    obtain ⟨⟨d, hd⟩, hcs⟩ := List.forall_mem_cons.mp h
    obtain ⟨ds, hds, hmap⟩ := ih hcs
    exact ⟨d :: ds, by simp [hexDigits, hd, hds], by simp [hd, hmap]⟩

/-! ## The shapes of key text -/

theorem keyOfText_sixteen {cs : List Byte} (h : cs.length = 16) : keyOfText cs = (hexDigits cs).map packHex := if_pos h

theorem keyOfText_eight {cs : List Byte} (h : cs.length = 8) : keyOfText cs = packChars cs := by
  simp [keyOfText, h]

/-- The single quotes are stripped. -/
theorem keyOfText_quoted {cs : List Byte} (h : cs.length = 8) : keyOfText (0x27 :: cs ++ [0x27]) = packChars cs := by
  have hlen : (0x27 :: cs ++ [(0x27 : Byte)]).length = 10 := by simp [h]
  have hmiddle : ((0x27 :: cs ++ [(0x27 : Byte)]).drop 1).take 8 = cs := List.take_left' h
  rw [keyOfText, if_neg (by omega), if_neg (by omega), if_pos ⟨hlen, rfl, List.getLast?_concat⟩, hmiddle]

theorem keyOfText_other_length {cs : List Byte} (h8 : cs.length ≠ 8) (h10 : cs.length ≠ 10) (h16 : cs.length ≠ 16) :
    keyOfText cs = none := by
  simp [keyOfText, h8, h10, h16]

/-- Eight characters of the printable range are a key, plain or quoted. -/
theorem keyOfText_of_printable {cs : List Byte} (hlen : cs.length = 8)
    (h : ∀ c ∈ cs, 0x20 ≤ c.toNat ∧ c.toNat ≤ 0x7E) :
    keyOfText cs = some (beValue cs) ∧ keyOfText (0x27 :: cs ++ [0x27]) = some (beValue cs) := by
  rw [keyOfText_eight hlen, keyOfText_quoted hlen, packChars_of_printable h]
  exact ⟨rfl, rfl⟩

/-- Sixteen hex digits are a key that holds the value of digit i in its place. -/
theorem keyOfText_of_digits {cs : List Byte} (hlen : cs.length = 16) (h : ∀ c ∈ cs, ∃ d, hexDigit c = some d) :
    ∃ k, keyOfText cs = some k ∧
      ∀ i c, i < 16 → cs[i]? = some c → hexDigit c = some (k.extractLsb' (60 - 4 * i) 4) := by
  obtain ⟨ds, hds, hmap⟩ := hexDigits_of_digits h
  have hdslen : ds.length = 16 := by simpa [hlen] using congrArg List.length hmap
  refine ⟨packHex ds, by rw [keyOfText_sixteen hlen, hds, Option.map_some], fun i c hi hc => ?_⟩
  have hdigit := congrArg (·[i]?) hmap
  simpa [← packHex_digit hdslen hi, hc] using hdigit.symm

/-- Settles O18: eight characters are packed as bytes, sixteen digits as nibbles whose values hexDigit_value gives. -/
theorem keyTextPacking : Obligations.KeyTextPacking := by
  refine ⟨fun cs hlen h => ?_, fun cs hlen h => ?_, fun _ => keyOfText_other_length⟩
  · obtain ⟨hplain, hquoted⟩ := keyOfText_of_printable hlen h
    exact ⟨beValue cs, hplain, hquoted, fun _ => beValue_byte hlen⟩
  · obtain ⟨k, hk, hdigit⟩ := keyOfText_of_digits hlen fun c hc => hexDigit_of_range (h c hc)
    exact ⟨k, hk, fun i c hi hc => hexDigit_value (hdigit i c hi hc)⟩

end Sys2Proof.Machine
end

section
/-! SUPPORT. The bit primitives bit by bit (spec 40_bit_primitives.md R56 to R63). -/

namespace Sys2Proof.Machine

/-! ## Permutation -/

/-- Settles O10: permute_getLsbD at a position that the table reaches. -/
theorem permuteSelectsTheNamedBits : Obligations.PermuteSelectsTheNamedBits := by
  rintro w n table input rfl - i hi
  rw [permute_getLsbD, decide_eq_true hi, Bool.true_and, Bool.true_and]

/-! ## Halves -/

/-- From bit b on, the bits are the quotient by the weight of what lies below. -/
theorem toNat_extractLsb'_high {w a b : Nat} (hw : w = b + a) (v : BitVec w) :
    (v.extractLsb' b a).toNat = v.toNat / 2 ^ b := by
  have hv : v.toNat < 2 ^ b * 2 ^ a := by rw [← Nat.pow_add, ← hw]; exact v.isLt
  rw [BitVec.extractLsb'_toNat, Nat.shiftRight_eq_div_pow, Nat.mod_eq_of_lt (Nat.div_lt_of_lt_mul hv)]

theorem split56_toNat (v : BitVec 56) :
    (split56 v).1.toNat = v.toNat / 2 ^ 28 ∧ (split56 v).2.toNat = v.toNat % 2 ^ 28 :=
  ⟨toNat_extractLsb'_high (a := 28) (b := 28) rfl v, BitVec.extractLsb'_toNat 0 28 v⟩

theorem split64_toNat (v : Block) :
    (split64 v).1.toNat = v.toNat / 2 ^ 32 ∧ (split64 v).2.toNat = v.toNat % 2 ^ 32 :=
  ⟨toNat_extractLsb'_high (a := 32) (b := 32) rfl v, BitVec.extractLsb'_toNat 0 32 v⟩

/-- Settles O11: the halves as quotient and remainder, and the inverse laws of split and join. -/
theorem splitAndJoinAreInverse : Obligations.SplitAndJoinAreInverse := by
  refine ⟨fun v => ?_, split56_join56, fun v => ?_, split64_join64⟩
  · obtain ⟨hhigh, hlow⟩ := split56_toNat v
    exact ⟨hhigh, hlow, join56_split56 v⟩
  · obtain ⟨hhigh, hlow⟩ := split64_toNat v
    exact ⟨hhigh, hlow, join64_split64 v⟩

/-! ## Rotation -/

/-- Bit i moves up by n, and what leaves at position 27 comes back at position 0. -/
theorem rotL28_getLsbD (h : KeyHalf) {n i : Nat} (hn : n ≤ 28) (hi : i < 28) :
    (rotL28 h n).getLsbD ((i + n) % 28) = h.getLsbD i := by
  rw [rotL28, BitVec.getLsbD_or, BitVec.getLsbD_shiftLeft, BitVec.getLsbD_ushiftRight]
  by_cases hwrap : i + n < 28
  · have hout : h.getLsbD (28 - n + (i + n)) = false := BitVec.getLsbD_of_ge _ _ (by omega)
    simp [Nat.mod_eq_of_lt hwrap, hwrap, hout]
  · have hmod : (i + n) % 28 = i + n - 28 := by omega
    have hback : 28 - n + (i + n - 28) = i := by omega
    have hlow : i + n - 28 < n := by omega
    simp [hmod, hback, hlow]

/-- A list of rotations moves every bit by the sum of the amounts. -/
theorem foldl_rotL28_getLsbD (h : KeyHalf) {ns : List Nat} {i : Nat} (hns : ∀ n ∈ ns, n ≤ 28) (hi : i < 28) :
    (ns.foldl rotL28 h).getLsbD ((i + ns.sum) % 28) = h.getLsbD i := by
  induction ns generalizing h i with
  | nil => simp [Nat.mod_eq_of_lt hi]
  | cons n ns ih =>
    obtain ⟨hn, hns⟩ := List.forall_mem_cons.mp hns
    have hpos : (i + (n + ns.sum)) % 28 = ((i + n) % 28 + ns.sum) % 28 := by omega
    rw [List.foldl_cons, List.sum_cons, hpos, ih _ hns (Nat.mod_lt _ (by decide)), rotL28_getLsbD h hn hi]

/-- Amounts that sum to the width bring every bit back to its place. -/
theorem foldl_rotL28_eq_self (h : KeyHalf) {ns : List Nat} (hns : ∀ n ∈ ns, n ≤ 28) (hsum : ns.sum = 28) :
    ns.foldl rotL28 h = h := by
  refine BitVec.eq_of_getLsbD_eq fun i hi => ?_
  have hbit := foldl_rotL28_getLsbD h hns hi
  rwa [hsum, Nat.add_mod_right, Nat.mod_eq_of_lt hi] at hbit

/-- Settles O12: one rotation bit by bit, and an induction over the list of amounts. -/
theorem rotationMovesEveryBit : Obligations.RotationMovesEveryBit :=
  ⟨fun h n _ hn hi => rotL28_getLsbD h (by omega) hi,
    fun h _ hns hsum => foldl_rotL28_eq_self h (fun n hn => by have := hns n hn; omega) hsum⟩

/-! ## Byte order -/

/-- Bit i of the swapped block is the same bit of the mirrored byte. -/
theorem byteswap64_getLsbD (v : Block) {i : Nat} (hi : i < 64) :
    (byteswap64 v).getLsbD i = v.getLsbD (8 * (7 - i / 8) + i % 8) := by
  simp only [byteswap64, BitVec.getLsbD_append, BitVec.getLsbD_extractLsb']
  split_ifs
  all_goals
    rw [decide_eq_true (by omega), Bool.true_and]
    congr 1
    omega

theorem byteswap64_byteswap64 (v : Block) : byteswap64 (byteswap64 v) = v := by
  refine BitVec.eq_of_getLsbD_eq fun i hi => ?_
  rw [byteswap64_getLsbD _ hi, byteswap64_getLsbD _ (by omega)]
  congr 1
  omega

/-- Byte k, counted from the most significant, is byte 7 − k of the block. -/
theorem byteswap64_byte (v : Block) {k : Nat} (hk : k < 8) :
    (byteswap64 v).extractLsb' (56 - 8 * k) 8 = v.extractLsb' (56 - 8 * (7 - k)) 8 := by
  refine BitVec.eq_of_getLsbD_eq fun j hj => ?_
  have hpos : 8 * (7 - (56 - 8 * k + j) / 8) + (56 - 8 * k + j) % 8 = 56 - 8 * (7 - k) + j := by omega
  rw [BitVec.getLsbD_extractLsb', BitVec.getLsbD_extractLsb', byteswap64_getLsbD v (by omega), hpos]

/-- Settles O13: the bytes and the involution, both read off the bits. -/
theorem byteswapReversesBytes : Obligations.ByteswapReversesBytes :=
  fun v => ⟨byteswap64_byteswap64 v, fun _ => byteswap64_byte v⟩

/-! ## Fields -/

/-- A field of n bits from bit s on is the shift by s under a mask of n ones. -/
theorem toNat_extractLsb'_eq_shift_mask {w : Nat} (v : BitVec w) (s n : Nat) :
    (v.extractLsb' s n).toNat = v.toNat >>> s &&& 2 ^ n - 1 := by
  rw [BitVec.extractLsb'_toNat, Nat.and_two_pow_sub_one_eq_mod]

theorem extract6_toNat (v : RoundKey) (i : Nat) :
    (extract6 v i).toNat = ((v >>> (48 - 6 * i)) &&& 0x3F).toNat := by
  rw [extract6, toNat_extractLsb'_eq_shift_mask, BitVec.toNat_and, BitVec.toNat_ushiftRight]
  rfl

theorem scol_eq (b : BitVec 6) : scol b = ((b >>> 1) &&& 0b1111).toNat := by
  rw [scol, toNat_extractLsb'_eq_shift_mask, BitVec.toNat_and, BitVec.toNat_ushiftRight]
  rfl

/-- The 64 fields, one by one. -/
theorem srow_eq : ∀ b : BitVec 6, srow b = (((b &&& 0b100000) >>> 4) ||| (b &&& 1)).toNat := by
  decide

/-- Settles O14: the field and the column as shift and mask, the row on the 64 fields. -/
theorem sixBitFieldsRowAndColumn : Obligations.SixBitFieldsRowAndColumn :=
  ⟨fun v i _ _ => extract6_toNat v i, fun b => ⟨srow_eq b, scol_eq b⟩⟩

end Sys2Proof.Machine
end

section
/-! SUPPORT. The fixed tables (spec 41_tables.md R66 to R74): what their entries are, and what follows for the
permutations that read them. -/

namespace Sys2Proof.Machine

/-! ## Tables that undo each other -/

/-- Each entry of outer names a bit of w, and there inner holds the entry's own place in outer. -/
abbrev LeadsBack (w : Nat) (outer inner : List Nat) : Prop :=
  ∀ k, k < w → 1 ≤ outer.getD k 0 ∧ outer.getD k 0 ≤ w ∧ inner.getD (outer.getD k 0 - 1) 0 = k + 1

/-- A table that leads back to the one before it returns every bit to its place. -/
theorem permute_permute_eq_self {w : Nat} {outer inner : List Nat} (houter : outer.length = w)
    (hinner : inner.length = w) (h : LeadsBack w outer inner) (v : BitVec w) :
    permute w outer (permute w inner v) = v := by
  refine BitVec.eq_of_getLsbD_eq fun i hi => ?_
  obtain ⟨hpos, hle, hback⟩ := h (w - 1 - i) (by omega)
  have hnamed : w - outer.getD (w - 1 - i) 0 < w := by omega
  have hread : w - 1 - (w - outer.getD (w - 1 - i) 0) = outer.getD (w - 1 - i) 0 - 1 := by omega
  have hplace : w - (w - 1 - i + 1) = i := by omega
  simp only [permute_getLsbD, houter, hinner, hi, hnamed, decide_true, Bool.true_and, hread, hback, hplace]

theorem tableIP_length : tableIP.length = 64 := rfl

theorem tableFP_length : tableFP.length = 64 := rfl

theorem tableIP_leadsBack_tableFP : LeadsBack 64 tableIP tableFP := by decide

theorem tableFP_leadsBack_tableIP : LeadsBack 64 tableFP tableIP := by decide

/-- Settles O16: each of the two tables leads back to the other. -/
theorem finalPermutationInvertsInitial : Obligations.FinalPermutationInvertsInitial := fun v =>
  ⟨permute_permute_eq_self tableFP_length tableIP_length tableFP_leadsBack_tableIP v,
    permute_permute_eq_self tableIP_length tableFP_length tableIP_leadsBack_tableFP v⟩

/-! ## PC-2 and the halves of the key -/

/-- From bit 28 on, the joined key is C. -/
theorem join56_getLsbD_high (c d : KeyHalf) {i : Nat} (hi : 28 ≤ i) :
    (join56 c d).getLsbD i = c.getLsbD (i - 28) := by
  rw [join56, BitVec.getLsbD_append, if_neg (Nat.not_lt.mpr hi)]

/-- Below bit 28, the joined key is D. -/
theorem join56_getLsbD_low (c d : KeyHalf) {i : Nat} (hi : i < 28) : (join56 c d).getLsbD i = d.getLsbD i := by
  rw [join56, BitVec.getLsbD_append, if_pos hi]

/-- A field of a permutation depends only on the input bits that the field's entries name. -/
theorem extractLsb'_permute_congr {w n : Nat} {table : List Nat} (hlen : table.length = n) {x y : BitVec w}
    {s len : Nat}
    (h : ∀ i, s ≤ i → i < s + len →
      x.getLsbD (w - table.getD (n - 1 - i) 0) = y.getLsbD (w - table.getD (n - 1 - i) 0)) :
    (permute n table x).extractLsb' s len = (permute n table y).extractLsb' s len := by
  refine BitVec.eq_of_getLsbD_eq fun j hj => ?_
  rw [BitVec.getLsbD_extractLsb', BitVec.getLsbD_extractLsb', permute_getLsbD, permute_getLsbD, hlen,
    h (s + j) (Nat.le_add_right s j) (Nat.add_lt_add_left hj s)]

theorem tablePC2_length : tablePC2.length = 48 := rfl

/-- The first 24 entries of PC-2 name bits of C. -/
theorem tablePC2_first_entries : ∀ k, k < 24 → tablePC2.getD k 0 ≤ 28 := by decide

/-- The last 24 entries of PC-2 name bits of D. -/
theorem tablePC2_last_entries : ∀ k, k < 48 → 24 ≤ k → 29 ≤ tablePC2.getD k 0 := by decide

/-- Settles O23: the high bits of PC-2 are read by its first entries, the low bits by its last. -/
theorem roundKeyHalvesStayApart : Obligations.RoundKeyHalvesStayApart := by
  refine fun c c' d d' => ⟨extractLsb'_permute_congr tablePC2_length fun i hlow hhigh => ?_,
    extractLsb'_permute_congr tablePC2_length fun i _ hhigh => ?_⟩
  · have hentry := tablePC2_first_entries (48 - 1 - i) (by omega)
    have hbit : 28 ≤ 56 - tablePC2.getD (48 - 1 - i) 0 := by omega
    rw [join56_getLsbD_high _ _ hbit, join56_getLsbD_high _ _ hbit]
  · have hentry := tablePC2_last_entries (48 - 1 - i) (by omega) (by omega)
    have hbit : 56 - tablePC2.getD (48 - 1 - i) 0 < 28 := by omega
    rw [join56_getLsbD_low _ _ hbit, join56_getLsbD_low _ _ hbit]

/-! ## The structural checks of R74 -/

theorem tablePC1_count : ∀ t, t < 65 → tablePC1.count t = if 1 ≤ t ∧ t % 8 ≠ 0 then 1 else 0 := by decide

theorem tablePC2_count :
    ∀ t, t < 57 → tablePC2.count t = if 1 ≤ t ∧ t ∉ [9, 18, 22, 25, 35, 38, 43, 54] then 1 else 0 := by decide

theorem tableIP_tableFP_count : ∀ t, 1 ≤ t → t < 65 → tableIP.count t = 1 ∧ tableFP.count t = 1 := by decide

theorem tableP_count : ∀ t, 1 ≤ t → t < 33 → tableP.count t = 1 := by decide

theorem tableFP_getD_tableIP {q : Nat} (hpos : 1 ≤ q) (hq : q < 65) :
    tableFP.getD (tableIP.getD (q - 1) 0 - 1) 0 = q := by
  obtain ⟨-, -, hback⟩ := tableIP_leadsBack_tableFP (q - 1) (by omega)
  rw [hback, Nat.sub_add_cancel hpos]

theorem tableE_getD : ∀ g, g < 8 → ∀ h, h < 6 → tableE.getD (6 * g + h) 0 = (4 * g + h + 31) % 32 + 1 := by decide

theorem tableS_row_count :
    ∀ n, n < 8 → ∀ row, row < 4 → ∀ v, v < 16 →
      ((tableS (n + 1)).drop (16 * row) |>.take 16).count v = 1 := by decide

theorem tableS_sum_length : ∀ n, n < 8 → (tableS (n + 1)).sum = 480 ∧ (tableS (n + 1)).length = 64 := by decide

/-- Settles O15: the lengths and sums by computation, the other rows by the lemma on each table. -/
theorem tablesPassStructuralChecks : Obligations.TablesPassStructuralChecks :=
  ⟨rfl, rfl, tablePC1_count, tablePC2_count, tableIP_tableFP_count, tableP_count, fun _ => tableFP_getD_tableIP,
    tableE_getD, rfl, tableS_row_count, tableS_sum_length⟩

end Sys2Proof.Machine
end

section
/-! SUPPORT. The key schedule (spec 42_key_schedule.md R75 to R79): what KSCHED leaves, the halves C and D round by
round, the key bits that do not bear on the schedule, and the keys whose schedule is constant. -/

namespace Sys2Proof.Machine

/-! ## The command KSCHED -/

/-- Settles O19: test 1 of R115 is the only test of KSCHED. -/
theorem kschedWritesTheSchedule : Obligations.KschedWritesTheSchedule := by
  refine ⟨rfl, fun s => ⟨fun hfaulted => ?_, fun hrunning => ?_⟩⟩
  · exact whenRunning_of_faulted _ hfaulted
  · exact ⟨_, whenRunning_of_running _ hrunning, rfl, rfl⟩

/-! ## The halves round by round -/

/-- A half of the key after the rotations of the first i rounds (R77). -/
def rotatedHalf (h : KeyHalf) (i : Nat) : KeyHalf := (tableROT.take i).foldl rotL28 h

theorem rotatedHalf_succ (h : KeyHalf) (i : Fin 16) :
    rotatedHalf h (i + 1) = rotL28 (rotatedHalf h i) (tableROT.getD i 0) := by
  have hi : (i : Nat) < tableROT.length := i.isLt
  rw [rotatedHalf, List.take_succ_eq_append_getElem hi, List.foldl_append, List.getD_eq_getElem _ _ hi]
  rfl

theorem keySchedule_getElem (key : Block) (i : Fin 16) :
    (keySchedule key)[i] = permute 48 tablePC2
      (join56 (rotatedHalf (keyHalves key).1 (i + 1)) (rotatedHalf (keyHalves key).2 (i + 1))) :=
  (List.getElem_eq_iff _).mpr (roundKeysFrom_getElem? _ _ tableROT i i.isLt)

/-- Settles O20: C(i) and D(i) are the halves of the key after i rounds. -/
theorem roundKeysFollowTheRotations : Obligations.RoundKeysFollowTheRotations := fun key =>
  ⟨rotatedHalf (keyHalves key).1, rotatedHalf (keyHalves key).2, rfl,
    fun i => ⟨rotatedHalf_succ _ i, rotatedHalf_succ _ i, keySchedule_getElem key i⟩⟩

/-! ## Parity bits -/

/-- A permutation depends only on the input bits that its table names. -/
theorem permute_congr {w n : Nat} {table : List Nat} {x y : BitVec w}
    (h : ∀ t ∈ table, x.getLsbD (w - t) = y.getLsbD (w - t)) : permute n table x = permute n table y :=
  congrArg (BitVec.ofNat n) (List.foldl_ext _ _ _ fun _ t ht => by rw [h t ht])

theorem keySchedule_congr {key key' : Block} (h : permute 56 tablePC1 key = permute 56 tablePC1 key') :
    keySchedule key = keySchedule key' := by
  simp only [keySchedule, keyHalves, h]

/-- PC-1 names no bit whose position 64 − t is divisible by 8 (R66, R79 point 1). -/
theorem tablePC1_entries : ∀ t ∈ tablePC1, t < 64 ∧ t % 8 ≠ 0 := by decide

/-- Settles O21: PC-1 names none of the bits that the mask sets. -/
theorem scheduleIgnoresParityBits : Obligations.ScheduleIgnoresParityBits := by
  intro key m hmask
  refine keySchedule_congr (permute_congr fun t ht => ?_)
  obtain ⟨hlt, hmod⟩ := tablePC1_entries t ht
  have hclear : m.getLsbD (64 - t) = false := by
    refine Bool.eq_false_of_not_eq_true fun hset => ?_
    have hdiv := hmask (64 - t) (by omega) hset
    omega
  rw [BitVec.getLsbD_xor, hclear, Bool.xor_false]

/-! ## Keys whose schedule is constant -/

/-- Halves that no rotation of the list changes give the same round key in every round. -/
theorem roundKeysFrom_of_fixed {c d : KeyHalf} {ns : List Nat} (h : ∀ n ∈ ns, rotL28 c n = c ∧ rotL28 d n = d) :
    roundKeysFrom c d ns = List.replicate ns.length (permute 48 tablePC2 (join56 c d)) := by
  induction ns with
  | nil => rfl
  | cons n ns ih =>
    obtain ⟨⟨hc, hd⟩, hns⟩ := List.forall_mem_cons.mp h
    rw [roundKeysFrom, hc, hd, ih hns, List.length_cons, List.replicate_succ]

theorem keySchedule_toList (key : Block) :
    (keySchedule key).toList = roundKeysFrom (keyHalves key).1 (keyHalves key).2 tableROT := rfl

/-- Halves that no round changes make a schedule of sixteen times the round key they give. -/
theorem keySchedule_of_fixed {key : Block} {c d : KeyHalf} {k : RoundKey} (hkey : keyHalves key = (c, d))
    (hfixed : ∀ n ∈ tableROT, rotL28 c n = c ∧ rotL28 d n = d) (hround : permute 48 tablePC2 (join56 c d) = k) :
    keySchedule key = Vector.replicate 16 k := by
  refine Vector.toList_inj.mp ?_
  rw [keySchedule_toList, hkey, roundKeysFrom_of_fixed hfixed, hround, Vector.toList_replicate]
  rfl

theorem keySchedule_zero : keySchedule 0 = Vector.replicate 16 0 :=
  keySchedule_of_fixed (c := 0) (d := 0) rfl (by decide) rfl

theorem keySchedule_allOnes : keySchedule 0xFFFFFFFFFFFFFFFF = Vector.replicate 16 0xFFFFFFFFFFFF :=
  keySchedule_of_fixed (c := 0xFFFFFFF) (d := 0xFFFFFFF) rfl (by decide) rfl

/-- Settles O22: halves of equal bits are unchanged by every rotation; the other two keys differ from 0 and
from all ones in parity bits only. -/
theorem weakKeySchedules : Obligations.WeakKeySchedules := by
  have hmask : ∀ i, i < 64 → (0x0101010101010101 : Block).getLsbD i = true → i % 8 = 0 := by decide
  refine ⟨?_, keySchedule_zero, keySchedule_allOnes, ?_⟩
  · exact (scheduleIgnoresParityBits 0 _ hmask).trans keySchedule_zero
  · exact (scheduleIgnoresParityBits 0xFFFFFFFFFFFFFFFF _ hmask).trans keySchedule_allOnes

end Sys2Proof.Machine
end

section
/-! SUPPORT. The block transform (spec 43_block_transform.md R80 to R87): the outputs of the S-boxes, the halves round
by round, rounds under any list of round keys and under the reversed list, and the commands that transform DIN. -/

namespace Sys2Proof.Machine

/-! ## The outputs of the S-boxes -/

/-- Nibble i from the top is what stands after 8 − i nibbles have been taken off the low end, because sbox appends
the outputs from S1 down. -/
theorem extractLsb'_sbox (v : RoundKey) {i : Nat} (hpos : 1 ≤ i) (hle : i ≤ 8) :
    (sbox v).extractLsb' (32 - 4 * i) 4 = sboxNibble v i := by
  unfold sbox
  interval_cases i
  all_goals repeat rw [BitVec.extractLsb'_append_eq_of_le (by decide)]
  · exact BitVec.extractLsb'_eq_self
  all_goals exact BitVec.extractLsb'_append_eq_right

/-- Settles O24: the entry on field i is by definition the output of box i. -/
theorem sboxOutputsInOrder : Obligations.SboxOutputsInOrder := fun v _ => extractLsb'_sbox v

/-! ## The halves round by round -/

@[simp] theorem keyOrder_length (rk : Schedule) (action : Action) : (keyOrder rk action).length = 16 := by
  cases action <;> simp [keyOrder]

theorem keyOrder_encrypt_getElem (rk : Schedule) (i : Fin 16) : (keyOrder rk .encrypt)[i] = rk[i] :=
  Vector.getElem_toList _

theorem keyOrder_decrypt_getElem (rk : Schedule) (i : Fin 16) : (keyOrder rk .decrypt)[i] = rk[15 - i.val] := by
  simp [keyOrder]

/-- The halves L and R after the first i rounds (R83). -/
def halvesAfter (b : Block) (rk : Schedule) (action : Action) (i : Nat) : Half × Half :=
  ((keyOrder rk action).take i).foldl feistelRound (split64 (permute 64 tableIP b))

theorem halvesAfter_succ (b : Block) (rk : Schedule) (action : Action) (i : Fin 16) :
    halvesAfter b rk action (i + 1) = feistelRound (halvesAfter b rk action i) (keyOrder rk action)[i] := by
  have hi : (i : Nat) < (keyOrder rk action).length := by simp
  rw [halvesAfter, List.take_succ_eq_append_getElem hi, List.foldl_append]
  rfl

theorem transform_eq_halvesAfter (b : Block) (rk : Schedule) (action : Action) :
    transform b rk action = permute 64 tableFP
      (join64 (halvesAfter b rk action 16).2 (halvesAfter b rk action 16).1) := by
  rw [halvesAfter, List.take_of_length_le (by simp), transform]

/-- Settles O25: L and R are the halves after i rounds, and the key of round i stands at index i of the action's
order. -/
theorem transformIsSixteenRounds : Obligations.TransformIsSixteenRounds := by
  refine fun b rk action => ⟨fun i => (halvesAfter b rk action i).1, fun i => (halvesAfter b rk action i).2, rfl,
    fun i => ?_, transform_eq_halvesAfter b rk action⟩
  have hround := halvesAfter_succ b rk action i
  cases action with
  | encrypt => rw [keyOrder_encrypt_getElem] at hround; exact Prod.ext_iff.mp hround
  | decrypt => rw [keyOrder_decrypt_getElem] at hround; exact Prod.ext_iff.mp hround

/-! ## The reversed order of round keys -/

/-- Rounds are undone by the same round keys in the reversed order on the swapped halves: each key meets its own
round first, which feistelRound_undone takes back. -/
theorem foldl_feistelRound_reverse (ks : List RoundKey) (lr : Half × Half) :
    ks.reverse.foldl feistelRound (ks.foldl feistelRound lr).swap = lr.swap := by
  induction ks generalizing lr with
  | nil => rfl
  | cons k ks ih =>
    rw [List.foldl_cons, List.reverse_cons, List.foldl_append, ih]
    exact feistelRound_undone lr.1 lr.2 k

/-- The transform under any list of round keys. -/
def transformUnder (ks : List RoundKey) (b : Block) : Block :=
  let lr := ks.foldl feistelRound (split64 (permute 64 tableIP b))
  permute 64 tableFP (join64 lr.2 lr.1)

theorem transform_eq_transformUnder (b : Block) (rk : Schedule) (action : Action) :
    transform b rk action = transformUnder (keyOrder rk action) b := rfl

/-- IP and the split give back the swapped halves that a transform has left. -/
theorem split64_permute_transformUnder (ks : List RoundKey) (b : Block) :
    split64 (permute 64 tableIP (transformUnder ks b)) =
      (ks.foldl feistelRound (split64 (permute 64 tableIP b))).swap := by
  have hIP : ∀ v, permute 64 tableIP (permute 64 tableFP v) = v := fun v => (finalPermutationInvertsInitial v).2
  rw [transformUnder, hIP, split64_join64, Prod.swap]

theorem transformUnder_reverse (ks : List RoundKey) (b : Block) :
    transformUnder ks.reverse (transformUnder ks b) = b := by
  obtain ⟨hFP, -⟩ := finalPermutationInvertsInitial b
  rw [transformUnder, split64_permute_transformUnder, foldl_feistelRound_reverse, Prod.fst_swap, Prod.snd_swap,
    join64_split64, hFP]

/-- A schedule that reads the same in both directions has one order of round keys. -/
theorem keyOrder_decrypt_eq_encrypt {rk : Schedule} (h : ∀ i : Fin 16, rk[i] = rk[15 - i.val]) :
    keyOrder rk .decrypt = keyOrder rk .encrypt := by
  have hreverse : rk.reverse = rk := Vector.ext fun i hi => (Vector.getElem_reverse hi).trans (h ⟨i, hi⟩).symm
  rw [keyOrder_decrypt, keyOrder, ← Vector.toList_reverse, hreverse]

theorem transform_decrypt_encrypt (b : Block) (rk : Schedule) :
    transform (transform b rk .encrypt) rk .decrypt = b :=
  transformUnder_reverse (keyOrder rk .encrypt) b

theorem transform_encrypt_decrypt (b : Block) (rk : Schedule) :
    transform (transform b rk .decrypt) rk .encrypt = b := by
  have h := transformUnder_reverse (keyOrder rk .decrypt) b
  rwa [keyOrder_decrypt, List.reverse_reverse] at h

/-- Settles O26: the two orders of round keys are each other's reversal; where they are one order the actions are one
function, and the inverse law makes it an involution. -/
theorem transformInverseLaw : Obligations.TransformInverseLaw := by
  refine fun b rk => ⟨transform_decrypt_encrypt b rk, transform_encrypt_decrypt b rk, fun hpalindrome => ?_⟩
  have hone : ∀ x, transform x rk .encrypt = transform x rk .decrypt := fun x => by
    rw [transform_eq_transformUnder, transform_eq_transformUnder, keyOrder_decrypt_eq_encrypt hpalindrome]
  exact ⟨hone b, (hone _).trans (transform_decrypt_encrypt b rk)⟩

/-! ## Commands on one block -/

theorem blockCommand_of_faulted {s : State} (f : Schedule → Block → Block) (hfaulted : s.status ≠ 0) :
    blockCommand s f = .fault (.faulted s.status) := whenRunning_of_faulted _ hfaulted

theorem blockCommand_of_unloaded {s : State} (f : Schedule → Block → Block) (hrunning : s.status = 0)
    (hkey : s.rkv = false) : blockCommand s f = .next (enterFault s .keyNotLoaded) :=
  (whenRunning_of_running _ hrunning).trans (withKey_of_unloaded _ hkey)

theorem blockCommand_of_loaded {s : State} (f : Schedule → Block → Block) (hrunning : s.status = 0)
    (hkey : s.rkv = true) : blockCommand s f = .next (complete s (some (f s.rk s.ops.din))) :=
  (whenRunning_of_running _ hrunning).trans (withKey_of_loaded _ hkey)

/-- Settles O27: BLK.E and BLK.D are block commands, and a completion with DOUT leaves the architectural state. -/
theorem blockCommandsTransformDin : Obligations.BlockCommandsTransformDin := by
  refine ⟨rfl, rfl, fun s => ⟨fun hfaulted => ?_, fun hrunning hkey => ?_, fun hrunning hkey => ?_⟩⟩
  · exact ⟨blockCommand_of_faulted _ hfaulted, blockCommand_of_faulted _ hfaulted⟩
  · exact ⟨⟨_, blockCommand_of_unloaded _ hrunning hkey, raised_enterFault s _⟩,
      ⟨_, blockCommand_of_unloaded _ hrunning hkey, raised_enterFault s _⟩⟩
  · exact ⟨⟨_, blockCommand_of_loaded _ hrunning hkey, rfl, rfl⟩,
      ⟨_, blockCommand_of_loaded _ hrunning hkey, rfl, rfl⟩⟩

end Sys2Proof.Machine
end

section
/-! SUPPORT. The mode engines (spec 44_mode_engines.md R88 to R96): the engine under both modes, the commands
on one block, a chain of such commands, and the frame that FRM.E.CBC makes of a chain (45_framing_codec.md R103). -/

namespace Sys2Proof.Machine

/-! ## The engine -/

/-- One block encrypted and decrypted again from the same chaining value; both actions hand on the same next one. -/
theorem engineStep_decrypt_encrypt (mode : Mode) (rk : Schedule) (prev b : Block) :
    engineStep mode .decrypt rk prev (engineStep mode .encrypt rk prev b).1 =
      (b, (engineStep mode .encrypt rk prev b).2) := by
  cases mode with
  | ecb => simp only [engineStep, ecbStep, transform_decrypt_encrypt]
  | cbc =>
    simp only [engineStep, cbcStep, transform_decrypt_encrypt]
    rw [BitVec.xor_assoc, BitVec.xor_self, BitVec.xor_zero]

theorem runEngine_decrypt_encrypt (mode : Mode) (rk : Schedule) (prev : Block) (bs : List Block) :
    runEngine mode .decrypt rk prev (runEngine mode .encrypt rk prev bs).1 =
      (bs, (runEngine mode .encrypt rk prev bs).2) := by
  induction bs generalizing prev with
  | nil => rfl
  | cons b bs ih => simp only [runEngine, engineStep_decrypt_encrypt, ih]

/-- The engine goes on from the chaining value that the first blocks left. -/
theorem runEngine_append (mode : Mode) (action : Action) (rk : Schedule) (prev : Block) (bs bs' : List Block) :
    runEngine mode action rk prev (bs ++ bs') =
      ((runEngine mode action rk prev bs).1 ++ (runEngine mode action rk (runEngine mode action rk prev bs).2 bs').1,
        (runEngine mode action rk (runEngine mode action rk prev bs).2 bs').2) := by
  induction bs generalizing prev with
  | nil => rfl
  | cons b bs ih => simp only [List.cons_append, runEngine, ih]

/-- Decrypting in CBC, the chaining value reaches the first block only, because the next one is the ciphertext. -/
theorem runEngine_cbc_decrypt_xor (rk : Schedule) (prev d : Block) (cs : List Block) :
    (runEngine .cbc .decrypt rk (prev ^^^ d) cs).1 =
      (runEngine .cbc .decrypt rk prev cs).1.modifyHead (· ^^^ d) := by
  cases cs with
  | nil => rfl
  | cons c cs => simp only [runEngine, engineStep, cbcStep, List.modifyHead_cons, BitVec.xor_assoc]

/-- A ciphertext block inside a CBC chain: its own plaintext block, and the chaining value of those after it. -/
theorem runEngine_cbc_decrypt_split (rk : Schedule) (prev c : Block) (pre post : List Block) :
    (runEngine .cbc .decrypt rk prev (pre ++ c :: post)).1 =
      (runEngine .cbc .decrypt rk prev pre).1 ++
        (transform c rk .decrypt ^^^ (runEngine .cbc .decrypt rk prev pre).2) ::
          (runEngine .cbc .decrypt rk c post).1 := by
  rw [runEngine_append]
  rfl

theorem transform_decrypt_injective (rk : Schedule) : Function.Injective (transform · rk .decrypt) :=
  Function.LeftInverse.injective (g := (transform · rk .encrypt)) fun c => transform_encrypt_decrypt c rk

/-! ## The commands on one block -/

section
variable {s : State}

theorem cbcInit_of_running (hrunning : s.status = 0) :
    exec .cbcInit s = .next (complete (writePrev s s.params.iv) none) := whenRunning_of_running _ hrunning

theorem chainCommand_of_faulted (action : Action) (hfaulted : s.status ≠ 0) :
    chainCommand s action = .fault (.faulted s.status) := whenRunning_of_faulted _ hfaulted

theorem chainCommand_of_unloaded (action : Action) (hrunning : s.status = 0) (hkey : s.rkv = false) :
    chainCommand s action = .next (enterFault s .keyNotLoaded) :=
  (whenRunning_of_running _ hrunning).trans (withKey_of_unloaded _ hkey)

theorem chainCommand_of_uninitialised (action : Action) (hrunning : s.status = 0) (hkey : s.rkv = true)
    (hchain : s.prevv = false) : chainCommand s action = .next (enterFault s .chainNotInitialised) :=
  (chainCommand_of_invalid hchain).trans ((whenRunning_of_running _ hrunning).trans (withKey_of_loaded _ hkey))

theorem chainCommand_of_initialised (action : Action) (hrunning : s.status = 0) (hkey : s.rkv = true)
    (hchain : s.prevv = true) :
    chainCommand s action = .next (complete (writePrev s (cbcStep action s.rk s.prev s.ops.din).2)
      (some (cbcStep action s.rk s.prev s.ops.din).1)) :=
  (whenRunning_of_running _ hrunning).trans ((withKey_of_loaded _ hkey).trans (withChain_of_valid _ hchain))

/-- A completed command on one CBC block leaves PREVV = 1 as it found it. -/
theorem arch_complete_writePrev (hchain : s.prevv = true) (v : Block) (dout : Option Block) :
    (complete (writePrev s v) dout).arch = { s.arch with prev := v } := by
  simp [State.arch, hchain]

end

/-- Settles O28: the ECB commands are block commands, and ECB's step is BLK's function by definition. -/
theorem ecbCommandsTransformDin : Obligations.EcbCommandsTransformDin := by
  obtain ⟨-, -, hblk⟩ := blockCommandsTransformDin
  refine ⟨rfl, rfl, fun s => ?_⟩
  obtain ⟨hfaulted, hunloaded, hloaded⟩ := hblk s
  exact ⟨hfaulted, hunloaded, hloaded, rfl, rfl⟩

/-- Settles O29: test 1 of R115 is the only test of CBC.INIT. -/
theorem cbcInitLoadsTheIv : Obligations.CbcInitLoadsTheIv := by
  refine ⟨rfl, fun s => ⟨fun hfaulted => whenRunning_of_faulted _ hfaulted, fun hrunning => ?_⟩⟩
  exact ⟨_, cbcInit_of_running hrunning, rfl, rfl, fun hparams => congrArg Config.Params.iv hparams⟩

/-- What CBC.E and CBC.D answer, test by test in R115's order. -/
theorem chainCommand_outcomes (action : Action) (s : State) :
    (s.status ≠ 0 → chainCommand s action = .fault (.faulted s.status)) ∧
    (s.status = 0 → s.rkv = false → ∃ t, chainCommand s action = .next t ∧ s.raised .keyNotLoaded t) ∧
    (s.status = 0 → s.rkv = true → s.prevv = false →
      ∃ t, chainCommand s action = .next t ∧ t.status = 9 ∧ s.raised .chainNotInitialised t) ∧
    (s.status = 0 → s.rkv = true → s.prevv = true →
      ∃ t, chainCommand s action = .next t ∧
        t.arch = { s.arch with prev := (cbcStep action s.rk s.prev s.ops.din).2 } ∧
        t.dout = some (cbcStep action s.rk s.prev s.ops.din).1) := by
  refine ⟨fun hfaulted => ?_, fun hrunning hkey => ?_, fun hrunning hkey hchain => ?_,
    fun hrunning hkey hchain => ?_⟩
  · exact chainCommand_of_faulted _ hfaulted
  · exact ⟨_, chainCommand_of_unloaded _ hrunning hkey, raised_enterFault s _⟩
  · exact ⟨_, chainCommand_of_uninitialised _ hrunning hkey hchain, rfl, raised_enterFault s _⟩
  · exact ⟨_, chainCommand_of_initialised _ hrunning hkey hchain, arch_complete_writePrev hchain _ _, rfl⟩

/-- Settles O30: the step of CBC.E gives the ciphertext block both as its output and as its chaining value. -/
theorem cbcEncryptChainsTheCiphertext : Obligations.CbcEncryptChainsTheCiphertext :=
  ⟨rfl, chainCommand_outcomes .encrypt⟩

/-- Settles O31: the step of CBC.D gives its input as the chaining value. -/
theorem cbcDecryptChainsTheCiphertext : Obligations.CbcDecryptChainsTheCiphertext :=
  ⟨rfl, chainCommand_outcomes .decrypt⟩

/-! ## A chain of commands -/

theorem issueBlock_of_next {i : Instr} {s t : State} {b d : Block} (h : exec i (s.withDin b) = .next t)
    (hdout : t.dout = some d) : issueBlock i s b = some (d, t) := by
  rw [issueBlock, h]
  simp only [hdout, Option.map_some]

theorem issueBlocks_cons_of_some {i : Instr} {s t u : State} {b d : Block} {bs ds : List Block}
    (hhead : issueBlock i s b = some (d, t)) (htail : issueBlocks i bs t = some (ds, u)) :
    issueBlocks i (b :: bs) s = some (d :: ds, u) := by
  simp only [issueBlocks, hhead, htail, Option.map_some]

/-- The command that runs the engine on one block under CBC. -/
def chainInstr : Action → Instr
  | .encrypt => .cbcE
  | .decrypt => .cbcD

theorem exec_chainInstr (action : Action) (s : State) : exec (chainInstr action) s = chainCommand s action := by
  cases action <;> rfl

section
variable {s : State} (hrunning : s.status = 0) (hkey : s.rkv = true)
include hrunning hkey

/-- One command that reads the key only, whatever function f of RK and DIN it computes. -/
theorem issueBlock_blockCommand {i : Instr} {f : Schedule → Block → Block} (hi : ∀ u, exec i u = blockCommand u f)
    {b d : Block} (hd : f s.rk b = d) : issueBlock i s b = some (d, complete (s.withDin b) (some d)) := by
  subst hd
  exact issueBlock_of_next ((hi _).trans (blockCommand_of_loaded f hrunning hkey)) rfl

/-- One CBC command on a block runs the engine on it from PREV. -/
theorem issueBlock_chainInstr (hchain : s.prevv = true) (action : Action) (b : Block) :
    ∃ t, issueBlock (chainInstr action) s b = some ((engineStep .cbc action s.rk s.prev b).1, t) ∧
      t.arch = { s.arch with prev := (engineStep .cbc action s.rk s.prev b).2 } ∧ t.params = s.params := by
  have hexec := (exec_chainInstr action (s.withDin b)).trans (chainCommand_of_initialised action hrunning hkey hchain)
  exact ⟨_, issueBlock_of_next hexec rfl, arch_complete_writePrev (s := s.withDin b) hchain _ _, rfl⟩

/-- CBC commands on blocks run the engine on them from PREV, and PREV takes the last chaining value. -/
theorem issueBlocks_chainInstr (hchain : s.prevv = true) (action : Action) (bs : List Block) :
    ∃ t, issueBlocks (chainInstr action) bs s = some ((runEngine .cbc action s.rk s.prev bs).1, t) ∧
      t.arch = { s.arch with prev := (runEngine .cbc action s.rk s.prev bs).2 } ∧ t.params = s.params := by
  induction bs generalizing s with
  | nil => exact ⟨s, rfl, rfl, rfl⟩
  | cons b bs ih =>
    obtain ⟨t, hhead, harch, hparams⟩ := issueBlock_chainInstr hrunning hkey hchain action b
    obtain ⟨hrk, hrkv, hprev, hprevv, hstatus⟩ := Arch.mk.inj harch
    obtain ⟨u, htail, harch', hparams'⟩ := ih (hstatus.trans hrunning) (hrkv.trans hkey) (hprevv.trans hchain)
    rw [hrk, hprev] at htail harch'
    rw [harch] at harch'
    exact ⟨u, issueBlocks_cons_of_some hhead htail, harch', hparams'.trans hparams⟩

/-- CBC.INIT, and then the engine from IV. -/
theorem issueBlocks_after_cbcInit (action : Action) (bs : List Block) :
    ∃ s0 t, exec .cbcInit s = .next s0 ∧
      issueBlocks (chainInstr action) bs s0 = some ((runEngine .cbc action s.rk s.params.iv bs).1, t) ∧
      t.arch = { s.arch with prev := (runEngine .cbc action s.rk s.params.iv bs).2, prevv := true } ∧
      t.params = s.params := by
  obtain ⟨t, hchain⟩ := issueBlocks_chainInstr (s := complete (writePrev s s.params.iv) none) hrunning hkey rfl
    action bs
  exact ⟨_, t, cbcInit_of_running hrunning, hchain⟩

end

/-- Settles O32: an ECB command keeps RK, and the transforms undo each other. -/
theorem ecbRoundTrip : Obligations.EcbRoundTrip := by
  intro s b hrunning hkey
  have hE : ∀ u, exec .ecbE u = blockCommand u (ecbStep .encrypt) := fun _ => rfl
  have hD : ∀ u, exec .ecbD u = blockCommand u (ecbStep .decrypt) := fun _ => rfl
  exact ⟨⟨_, _, _, issueBlock_blockCommand hrunning hkey hE rfl,
      issueBlock_blockCommand hrunning hkey hD (transform_decrypt_encrypt b s.rk)⟩,
    ⟨_, _, _, issueBlock_blockCommand hrunning hkey hD rfl,
      issueBlock_blockCommand hrunning hkey hE (transform_encrypt_decrypt b s.rk)⟩⟩

/-- Settles O33: both chains run the engine from IV under the same RK, and the engine's decryption undoes its
encryption. -/
theorem cbcChainRoundTrip : Obligations.CbcChainRoundTrip := by
  intro s bs hrunning hkey
  obtain ⟨s0, s1, hinit, hencrypt, harch, hparams⟩ := issueBlocks_after_cbcInit hrunning hkey .encrypt bs
  obtain ⟨hrk : s1.rk = s.rk, hrkv, -, -, hstatus⟩ := Arch.mk.inj harch
  obtain ⟨s2, s3, hinit', hdecrypt, -, -⟩ := issueBlocks_after_cbcInit (hstatus.trans hrunning) (hrkv.trans hkey)
    .decrypt (runEngine .cbc .encrypt s.rk s.params.iv bs).1
  rw [hrk, hparams, runEngine_decrypt_encrypt] at hdecrypt
  exact ⟨s0, _, s1, s2, s3, hinit, hencrypt, runEngine_length _ _ _ _ _, hinit', hdecrypt⟩

/-- Settles O34: the blocks before the changed one give the same chaining value, its own block differs because the
transform is injective, and it is the chaining value of the next block only. -/
theorem cbcErrorPropagation : Obligations.CbcErrorPropagation := by
  intro s pre post c d hrunning hkey hchain hd
  obtain ⟨t, ht, -⟩ := issueBlocks_chainInstr hrunning hkey hchain .decrypt (pre ++ c :: post)
  obtain ⟨t', ht', -⟩ := issueBlocks_chainInstr hrunning hkey hchain .decrypt (pre ++ (c ^^^ d) :: post)
  rw [runEngine_cbc_decrypt_split] at ht
  rw [runEngine_cbc_decrypt_split, runEngine_cbc_decrypt_xor] at ht'
  refine ⟨_, _, transform (c ^^^ d) s.rk .decrypt ^^^ (runEngine .cbc .decrypt s.rk s.prev pre).2, _, t, t', ht,
    ht'.trans ?_, runEngine_length _ _ _ _ _, fun hsame => hd ?_⟩
  · cases (runEngine .cbc .decrypt s.rk c post).1 <;> rfl
  · have hblock : c = c ^^^ d := transform_decrypt_injective s.rk ((BitVec.xor_left_inj _).mp hsame)
    exact ((BitVec.xor_right_inj c).mp (BitVec.xor_zero.trans hblock)).symm

/-! ## A frame as a chain of commands -/

/-- Settles O41: the frame runs the engine from IV on the header and the data blocks, as the chain of commands does,
and OUT is the stream of the engine's blocks. -/
theorem cbcFrameEncryptionIsItsEngineSteps : Obligations.CbcFrameEncryptionIsItsEngineSteps := by
  intro s hrunning hkey hwf hsize
  obtain ⟨bs, hbs⟩ := dense_dataBlocks (hwf.2 hsize)
  obtain ⟨s0, u, hinit, hencrypt, harch, -⟩ :=
    issueBlocks_after_cbcInit hrunning hkey .encrypt (clearBlocks s bs)
  obtain ⟨-, -, hprev, hprevv, -⟩ := Arch.mk.inj harch
  refine ⟨bs, encryptedState .cbc s bs, s0, _, u, hbs, frameEncrypt_of_blocks hrunning hkey hsize hbs, hinit,
    hencrypt, hprev.symm, hprevv.symm, ?_, fun j hj => ?_⟩
  · rw [encryptedState_outLen, runEngine_length, clearBlocks, List.length_cons, dataBlocks_length hbs]
  · rw [encryptedState_out, memRead_stream _ j hj]

end Sys2Proof.Machine
end

section
/-! SUPPORT. The tests that an FRM command applies before it transforms a block (spec 45_framing_codec.md R101, R104,
R106, 60_exceptions.md R115): one equation per test that fires. -/

namespace Sys2Proof.Machine

/-! ## Any FRM command -/

/-- Every FRM command tests STATUS, RKV and IN_LEN first, in this order (R101, R115). -/
theorem exec_isFrame {i : Instr} (hi : i.isFrame = true) (s : State) :
    ∃ k, exec i s = whenRunning s (withKey s (withSize s k)) := by
  cases i with
  | frmEEcb | frmDEcb | frmECbc | frmDCbc => exact ⟨_, rfl⟩
  | _ => cases hi

/-- What an FRM command answers when one of its first three tests fires (R101, R115). -/
theorem exec_isFrame_early {i : Instr} (hi : i.isFrame = true) (s : State) :
    (s.status ≠ 0 → exec i s = .fault (.faulted s.status)) ∧
    (s.status = 0 → s.rkv = false → ∃ t, exec i s = .next t ∧ s.raised .keyNotLoaded t) ∧
    (s.status = 0 → s.rkv = true → s.ops.inLen.toNat > s.params.maxLen.toNat →
      ∃ t, exec i s = .next t ∧ s.raised (.size s.ops.inLen) t) := by
  obtain ⟨k, hexec⟩ := exec_isFrame hi s
  rw [hexec]
  refine ⟨fun hfaulted => whenRunning_of_faulted _ hfaulted, fun hrunning hkey => ?_, fun hrunning hkey hsize => ?_⟩
  · exact ⟨_, (whenRunning_of_running _ hrunning).trans (withKey_of_unloaded _ hkey), raised_enterFault _ _⟩
  · exact ⟨_, (whenRunning_of_running _ hrunning).trans ((withKey_of_loaded _ hkey).trans (withSize_of_over _ hsize)),
      raised_enterFault _ _⟩

/-- To raise a cause is to leave its code in STATUS. -/
theorem status_of_raised {s t : State} {x : FaultCause} (h : s.raised x t) : t.status = faultCode x := by
  obtain ⟨harch, -⟩ := h
  obtain ⟨-, -, -, -, hstatus⟩ := Arch.mk.inj harch
  exact hstatus

/-- Settles O45: the size test is the third of every FRM command. -/
theorem sizeFault : Obligations.SizeFault := by
  intro i s hi hrunning hkey hsize
  obtain ⟨-, -, hover⟩ := exec_isFrame_early hi s
  obtain ⟨t, hexec, hraised⟩ := hover hrunning hkey hsize
  exact ⟨t, hexec, status_of_raised hraised, hraised⟩

theorem exec_frameCommand_encrypt (mode : Mode) (s : State) :
    exec (frameCommand .encrypt mode) s = frameEncrypt mode s := by
  cases mode <;> rfl

theorem exec_frameCommand_decrypt (mode : Mode) (s : State) :
    exec (frameCommand .decrypt mode) s = frameDecrypt mode s := by
  cases mode <;> rfl

/-! ## An FRM.D command -/

/-- The header that an FRM.D command recovers from ciphertext block 0, and the chaining value after it (R105). -/
def recoveredHeader (mode : Mode) (s : State) (c0 : Block) : Block × Block :=
  engineStep mode .decrypt s.rk s.params.iv c0

theorem headerLength_eq (hdr : Block) : headerLength hdr = hdr.toNat % 2 ^ 32 := by
  simp only [headerLength, BitVec.extractLsb'_toNat, Nat.shiftRight_zero]

/-- The lengths that are not 8 · (n + 1) are those below 8 and those that leave a part of a block (R104). -/
theorem ne_frameLength_of_misaligned {len : Nat} (h : len < 8 ∨ (len - 8) % 8 ≠ 0) (n : Nat) : len ≠ 8 * (n + 1) := by
  omega

/-- The body of an FRM.D command has no test, so it completes or is refused. -/
theorem frameBody_status {mode : Mode} {s t : State} {hdr prev : Block} (h : frameBody mode s hdr prev = .next t) :
    t.status = s.status := by
  rw [frameBody] at h
  split at h
  · cases h
  · cases h
    rw [completeFrame_status, commitChain_eq]

section
variable {mode : Mode} {s : State} (hrunning : s.status = 0) (hkey : s.rkv = true)
  (hsize : s.ops.inLen.toNat ≤ s.params.maxLen.toNat)
include hrunning hkey hsize

theorem frameDecrypt_of_misaligned (h : ∀ n, s.ops.inLen.toNat ≠ 8 * (n + 1)) :
    frameDecrypt mode s = .next (enterFault s (.alignment s.ops.inLen)) := by
  rw [frameDecrypt, whenRunning_of_running _ hrunning, withKey_of_loaded _ hkey, withSize_of_within _ hsize,
    withAlignment_of_misaligned _ h]

theorem frameDecrypt_raises_alignment (h : s.ops.inLen.toNat < 8 ∨ (s.ops.inLen.toNat - 8) % 8 ≠ 0) :
    ∃ t, frameDecrypt mode s = .next t ∧ s.raised (.alignment s.ops.inLen) t :=
  ⟨_, frameDecrypt_of_misaligned hrunning hkey hsize (ne_frameLength_of_misaligned h), raised_enterFault _ _⟩

variable {n : Nat} (hlen : s.ops.inLen.toNat = 8 * (n + 1))
include hlen

theorem frameDecrypt_of_no_header (hheader : memRead s.ops.inBuf 0 8 = none) :
    frameDecrypt mode s = .refused (.inReadOutOfRange s.ops.inLen.toNat) := by
  rw [frameDecrypt, whenRunning_of_running _ hrunning, withKey_of_loaded _ hkey, withSize_of_within _ hsize,
    withAlignment_of_aligned _ hlen]
  simp only [opMemRead, opInLen, hheader]

/-- With an admitted length and a header block in IN, the format test decides (R105, R106). -/
theorem frameDecrypt_of_header {c0 : Block} (hheader : memRead s.ops.inBuf 0 8 = some c0) :
    frameDecrypt mode s = withFormat s (recoveredHeader mode s c0).1 (headerLength (recoveredHeader mode s c0).1) (8 * n)
      (frameBody mode s (recoveredHeader mode s c0).1 (recoveredHeader mode s c0).2) := by
  have hpayload : s.ops.inLen.toNat - 8 = 8 * n := by omega
  rw [frameDecrypt, whenRunning_of_running _ hrunning, withKey_of_loaded _ hkey, withSize_of_within _ hsize,
    withAlignment_of_aligned _ hlen]
  simp only [opMemRead, opInLen, hheader, hpayload]
  rfl

theorem frameDecrypt_of_misfit {c0 : Block} (hheader : memRead s.ops.inBuf 0 8 = some c0)
    (hmisfit : headerLength (recoveredHeader mode s c0).1 > 8 * n ∨
      8 * n - headerLength (recoveredHeader mode s c0).1 ≥ 8) :
    frameDecrypt mode s = .next (enterFault s (.format (recoveredHeader mode s c0).1)) :=
  (frameDecrypt_of_header hrunning hkey hsize hlen hheader).trans (withFormat_of_misfit _ hmisfit)

theorem frameDecrypt_raises_format {c0 : Block} (hheader : memRead s.ops.inBuf 0 8 = some c0)
    (hmisfit : headerLength (recoveredHeader mode s c0).1 > 8 * n ∨
      8 * n - headerLength (recoveredHeader mode s c0).1 ≥ 8) :
    ∃ t, frameDecrypt mode s = .next t ∧ s.raised (.format (recoveredHeader mode s c0).1) t :=
  ⟨_, frameDecrypt_of_misfit hrunning hkey hsize hlen hheader hmisfit, raised_enterFault _ _⟩

/-- An FRM.D command of an admitted length can raise Format only. -/
theorem frameDecrypt_status_of_aligned {t : State} (h : frameDecrypt mode s = .next t) :
    t.status = 7 ∨ t.status = 0 := by
  cases hheader : memRead s.ops.inBuf 0 8 with
  | none => rw [frameDecrypt_of_no_header hrunning hkey hsize hlen hheader] at h; cases h
  | some c0 =>
    by_cases hmisfit : headerLength (recoveredHeader mode s c0).1 > 8 * n ∨
        8 * n - headerLength (recoveredHeader mode s c0).1 ≥ 8
    · rw [frameDecrypt_of_misfit hrunning hkey hsize hlen hheader hmisfit] at h
      cases h
      exact .inl rfl
    · rw [frameDecrypt_of_header hrunning hkey hsize hlen hheader, withFormat_of_fits _ (by omega) (by omega)] at h
      exact .inr ((frameBody_status h).trans hrunning)

end

/-- Settles O46: the alignment test fires on a misaligned length, and past it the command raises Format or
completes. -/
theorem alignmentFault : Obligations.AlignmentFault := by
  intro mode s hrunning hkey hsize
  rw [exec_frameCommand_decrypt]
  refine ⟨fun hlen => ⟨_, frameDecrypt_of_misaligned hrunning hkey hsize hlen, rfl, raised_enterFault _ _⟩,
    fun n hlen t hexec => ?_⟩
  obtain hstatus | hstatus := frameDecrypt_status_of_aligned hrunning hkey hsize hlen hexec
  · rw [hstatus]; decide
  · rw [hstatus]; decide

/-- Settles O47: the header recovered is the one that the test looks at, and its low half is the length. -/
theorem formatFault : Obligations.FormatFault := by
  intro mode s n c0 hdr hrunning hkey hsize hlen hheader hhdr hmisfit
  have hrecovered : (recoveredHeader mode s c0).1 = hdr := by
    rw [hhdr]; cases mode <;> rfl
  rw [← headerLength_eq, ← hrecovered] at hmisfit
  obtain ⟨t, hexec, hraised⟩ := frameDecrypt_raises_format hrunning hkey hsize hlen hheader hmisfit
  rw [hrecovered] at hraised
  exact ⟨t, (exec_frameCommand_decrypt mode s).trans hexec, status_of_raised hraised, hraised⟩

end Sys2Proof.Machine
end

section
/-! SUPPORT. The data blocks of a plaintext (spec 45_framing_codec.md R99), byte by byte. -/

namespace Sys2Proof.Machine

/-- Byte k of a block that MemRead gives is the byte at offset a + k. -/
theorem memRead_block_byte {m : Memory} {a : Nat} {v : Block} (h : memRead m a 8 = some v) {k : Nat} (hk : k < 8) :
    some (v.extractLsb' (56 - 8 * k) 8) = byteAt m (a + k) := by
  rw [(memRead_eq_some (Nat.le_refl 8) v.isLt).mp h k hk]
  congr 2
  omega

/-- The bytes that fill up a block stand where the tail ends: the pad draws from pad[0] on. -/
theorem tail_append_pad_getElem? (pad : Vector Byte 7) {tail : List Byte} {k : Nat} (hlen : tail.length ≤ k)
    (hk : k < 8) : (tail ++ pad.toList.take (8 - tail.length))[k]? = pad[k - tail.length]? := by
  rw [List.getElem?_append_right hlen, List.getElem?_take_of_lt (by omega), Vector.getElem?_toList]

/-- Byte k of data block j is the byte of IN at offset 8(j − 1) + k, or past the end of IN a pad draw (R99). -/
theorem dataBlock_byte {s : State} {j k : Nat} {b : Block} (hb : dataBlock s j = some b)
    (hstart : 8 * (j - 1) < s.ops.inLen.toNat) (hk : k < 8) :
    some (b.extractLsb' (56 - 8 * k) 8) =
      if 8 * (j - 1) + k < s.ops.inLen.toNat then byteAt s.ops.inBuf (8 * (j - 1) + k)
      else s.ops.pad[8 * (j - 1) + k - s.ops.inLen.toNat]? := by
  by_cases hfull : 8 * (j - 1) + 8 ≤ s.ops.inLen.toNat
  · rw [dataBlock_of_full hfull] at hb
    rw [if_pos (by omega), memRead_block_byte hb hk]
  · rw [dataBlock_of_tail hfull, Option.map_eq_some_iff] at hb
    obtain ⟨tail, htail, rfl⟩ := hb
    obtain ⟨hlen, hbytes⟩ := (readBytes_eq_some _ _ _ _).mp htail
    rw [← hlen, beValue_byte (by simp; omega) hk]
    split
    · rw [hbytes k (by omega), List.getElem?_append_left (by omega)]
    · rw [tail_append_pad_getElem? _ (by omega) hk]
      congr 1
      omega

/-- Settles O35: IN is dense below MAXLEN, so the block can be formed. -/
theorem dataBlockBytes : Obligations.DataBlockBytes := by
  intro s j hwf hsize hpos hle
  obtain ⟨b, hb⟩ := dense_dataBlock (j := j) (hwf.2 hsize) (by omega)
  exact ⟨b, hb, fun k hk => dataBlock_byte hb (by omega) hk⟩

end Sys2Proof.Machine
end

section
/-! SUPPORT. The engine block by block (spec 44_mode_engines.md R88 to R95): each output block comes from its input
block and the chaining value that the blocks before it have left. -/

namespace Sys2Proof.Machine

/-- The chaining value after the first j blocks of bs. -/
def chainAfter (mode : Mode) (action : Action) (rk : Schedule) (prev : Block) (bs : List Block) (j : Nat) : Block :=
  (runEngine mode action rk prev (bs.take j)).2

section
variable (mode : Mode) (action : Action) (rk : Schedule) (prev : Block) (bs : List Block)

@[simp] theorem chainAfter_zero : chainAfter mode action rk prev bs 0 = prev := rfl

@[simp] theorem chainAfter_nil (j : Nat) : chainAfter mode action rk prev [] j = prev := by
  rw [chainAfter, List.take_nil, runEngine]

theorem chainAfter_length : chainAfter mode action rk prev bs bs.length = (runEngine mode action rk prev bs).2 := by
  rw [chainAfter, List.take_length]

theorem chainAfter_cons_succ (b : Block) (j : Nat) :
    chainAfter mode action rk prev (b :: bs) (j + 1) =
      chainAfter mode action rk (engineStep mode action rk prev b).2 bs j := rfl

variable {mode action rk prev bs}

theorem chainAfter_succ {j : Nat} {b : Block} (hb : bs[j]? = some b) :
    chainAfter mode action rk prev bs (j + 1) =
      (engineStep mode action rk (chainAfter mode action rk prev bs j) b).2 := by
  rw [chainAfter, List.take_add_one, hb, runEngine_append]
  rfl

theorem runEngine_getElem? {j : Nat} {b : Block} (hb : bs[j]? = some b) :
    (runEngine mode action rk prev bs).1[j]? =
      some (engineStep mode action rk (chainAfter mode action rk prev bs j) b).1 := by
  induction bs generalizing prev j with
  | nil => cases hb
  | cons b' bs ih =>
    cases j with
    | zero => cases hb; rfl
    | succ j => exact ih hb

/-- Encrypting in CBC, an output block is the chaining value that it leaves. -/
theorem runEngine_cbc_encrypt_getElem? {j : Nat} (hj : j < bs.length) :
    (runEngine .cbc .encrypt rk prev bs).1[j]? = some (chainAfter .cbc .encrypt rk prev bs (j + 1)) := by
  have hb : bs[j]? = some bs[j] := List.getElem?_eq_getElem hj
  rw [runEngine_getElem? hb, chainAfter_succ hb]
  rfl

/-- Decrypting in CBC, the chaining value is the ciphertext block before. -/
theorem chainAfter_cbc_decrypt_succ {j : Nat} {c : Block} (hc : bs[j]? = some c) :
    chainAfter .cbc .decrypt rk prev bs (j + 1) = c :=
  chainAfter_succ hc

end

theorem transform_encrypt_injective (rk : Schedule) : Function.Injective (transform · rk .encrypt) :=
  Function.LeftInverse.injective (g := (transform · rk .decrypt)) fun b => transform_decrypt_encrypt b rk

/-- Encrypting in CBC, another chaining value gives another chaining value, however many blocks follow. -/
theorem chainAfter_cbc_encrypt_injective (rk : Schedule) (bs : List Block) (j : Nat) :
    Function.Injective fun prev => chainAfter .cbc .encrypt rk prev bs j := by
  intro prev prev' h
  induction bs generalizing prev prev' j with
  | nil => simpa only [chainAfter_nil] using h
  | cons b bs ih =>
    cases j with
    | zero => exact h
    | succ j => exact (BitVec.xor_right_inj b).mp (transform_encrypt_injective rk (ih j h))

end Sys2Proof.Machine
end

section
/-! SUPPORT. The FRM.E commands (spec 45_framing_codec.md R98 to R103): OUT block by block. -/

namespace Sys2Proof.Machine

/-! ## A frame that completes -/

theorem frameEncrypt_of_wf {mode : Mode} {s : State} (hrunning : s.status = 0) (hkey : s.rkv = true)
    (hsize : s.ops.inLen.toNat ≤ s.params.maxLen.toNat) (hwf : Operands.wf s.params s.ops) :
    ∃ bs, dataBlocks s 1 (dataBlockCount s.ops.inLen.toNat) = some bs ∧
      frameEncrypt mode s = .next (encryptedState mode s bs) := by
  obtain ⟨bs, hbs⟩ := dense_dataBlocks (hwf.2 hsize)
  exact ⟨bs, hbs, frameEncrypt_of_blocks hrunning hkey hsize hbs⟩

/-- The chaining value after cleartext block j of a message, the header being block 0; in CBC this is ciphertext
block j (R103). -/
def messageChain (mode : Mode) (s : State) (bs : List Block) (j : Nat) : Block :=
  chainAfter mode .encrypt s.rk s.params.iv (clearBlocks s bs) (j + 1)

section
variable {mode : Mode} {s : State} {bs : List Block}

/-- Block j of OUT is the engine's step on cleartext block j. -/
theorem memRead_encryptedState {j : Nat} {b : Block} (hb : (clearBlocks s bs)[j]? = some b) :
    memRead (encryptedState mode s bs).out (8 * j) 8 =
      some (engineStep mode .encrypt s.rk (chainAfter mode .encrypt s.rk s.params.iv (clearBlocks s bs) j) b).1 := by
  obtain ⟨hj, -⟩ := List.getElem?_eq_some_iff.mp hb
  rw [encryptedState_out, memRead_stream _ j (by rwa [runEngine_length]), runEngine_getElem? hb]

theorem memRead_encryptedState_ecb {j : Nat} {b : Block} (hb : (clearBlocks s bs)[j]? = some b) :
    memRead (encryptedState .ecb s bs).out (8 * j) 8 = some (transform b s.rk .encrypt) :=
  memRead_encryptedState hb

theorem memRead_encryptedState_ecb_header :
    memRead (encryptedState .ecb s bs).out 0 8 =
      some (transform (headerBlock s.ops.rand32 s.ops.inLen.toNat) s.rk .encrypt) :=
  memRead_encryptedState_ecb (j := 0) rfl

theorem memRead_encryptedState_cbc {j : Nat} (hj : j ≤ bs.length) :
    memRead (encryptedState .cbc s bs).out (8 * j) 8 = some (messageChain .cbc s bs j) := by
  have hlt : j < (clearBlocks s bs).length := Nat.lt_succ_of_le hj
  rw [encryptedState_out, memRead_stream _ j (by rwa [runEngine_length]), runEngine_cbc_encrypt_getElem? hlt,
    messageChain]

/-- PREV after a CBC message is the last chaining value. -/
theorem encryptedState_cbc_prev : (encryptedState .cbc s bs).prev = messageChain .cbc s bs bs.length :=
  (chainAfter_length .cbc .encrypt s.rk s.params.iv (clearBlocks s bs)).symm

variable (hbs : dataBlocks s 1 (dataBlockCount s.ops.inLen.toNat) = some bs)
include hbs

/-- Cleartext block j, past the header, is data block j. -/
theorem clearBlocks_getElem?_of_pos {j : Nat} (hpos : 1 ≤ j) (hle : j ≤ dataBlockCount s.ops.inLen.toNat) :
    ∃ b, dataBlock s j = some b ∧ (clearBlocks s bs)[j]? = some b := by
  obtain ⟨i, rfl⟩ := Nat.exists_eq_add_of_le hpos
  have hi : i < bs.length := by rw [dataBlocks_length hbs]; omega
  have hb : bs[i]? = some bs[i] := List.getElem?_eq_getElem hi
  refine ⟨bs[i], (dataBlocks_getElem? hbs i (by omega)).trans hb, ?_⟩
  rw [Nat.add_comm, clearBlocks, List.getElem?_cons_succ, hb]

theorem messageChain_cbc_of_pos {j : Nat} (hpos : 1 ≤ j) (hle : j ≤ dataBlockCount s.ops.inLen.toNat) :
    ∃ b, dataBlock s j = some b ∧
      messageChain .cbc s bs j = transform (b ^^^ messageChain .cbc s bs (j - 1)) s.rk .encrypt := by
  obtain ⟨b, hblock, hb⟩ := clearBlocks_getElem?_of_pos hbs hpos hle
  refine ⟨b, hblock, ?_⟩
  rw [messageChain, messageChain, chainAfter_succ hb, Nat.sub_add_cancel hpos]
  rfl

theorem encryptedState_cbc_arch :
    (encryptedState .cbc s bs).arch =
      { s.arch with prev := messageChain .cbc s bs (dataBlockCount s.ops.inLen.toNat), prevv := true } := by
  rw [← dataBlocks_length hbs, ← encryptedState_cbc_prev]
  rfl

end

/-- Settles O36: in ECB block j of OUT is the transform of cleartext block j, and the chain is not committed. -/
theorem frameEncryptEcb : Obligations.FrameEncryptEcb := by
  refine ⟨rfl, fun s => ?_⟩
  obtain ⟨hfaulted, hunloaded, hover⟩ := exec_isFrame_early (i := .frmEEcb) rfl s
  refine ⟨hfaulted, hunloaded, hover, fun hrunning hkey hsize hwf => ?_⟩
  obtain ⟨bs, hbs, hexec⟩ := frameEncrypt_of_wf (mode := .ecb) hrunning hkey hsize hwf
  refine ⟨_, hexec, rfl, rfl, rfl, encryptedState_dense hbs, memRead_encryptedState_ecb_header,
    fun j hpos hle => ?_⟩
  obtain ⟨b, hblock, hb⟩ := clearBlocks_getElem?_of_pos hbs hpos hle
  exact ⟨b, hblock, memRead_encryptedState_ecb hb⟩

/-- Settles O37: in CBC block j of OUT is the chaining value after cleartext block j, and the last one is committed. -/
theorem frameEncryptCbc : Obligations.FrameEncryptCbc := by
  refine ⟨rfl, fun s => ?_⟩
  obtain ⟨hfaulted, hunloaded, hover⟩ := exec_isFrame_early (i := .frmECbc) rfl s
  refine ⟨hfaulted, hunloaded, hover, fun hrunning hkey hsize hwf => ?_⟩
  obtain ⟨bs, hbs, hexec⟩ := frameEncrypt_of_wf (mode := .cbc) hrunning hkey hsize hwf
  refine ⟨_, messageChain .cbc s bs, hexec, encryptedState_cbc_arch hbs, rfl, rfl, encryptedState_dense hbs, rfl,
    fun j hpos hle => messageChain_cbc_of_pos hbs hpos hle, fun j hle => memRead_encryptedState_cbc ?_⟩
  rwa [dataBlocks_length hbs]

/-! ## Another rand32 -/

/-- The state with another draw rand32 on the port. -/
def State.withRand32 (s : State) (r : BitVec 32) : State := { s with ops := { s.ops with rand32 := r } }

@[simp] theorem withRand32_rk (s : State) (r : BitVec 32) : (s.withRand32 r).rk = s.rk := rfl
@[simp] theorem withRand32_params (s : State) (r : BitVec 32) : (s.withRand32 r).params = s.params := rfl
@[simp] theorem withRand32_inLen (s : State) (r : BitVec 32) : (s.withRand32 r).ops.inLen = s.ops.inLen := rfl
@[simp] theorem withRand32_rand32 (s : State) (r : BitVec 32) : (s.withRand32 r).ops.rand32 = r := rfl

/-- The data blocks hold no bit of rand32. -/
theorem dataBlocks_withRand32 (s : State) (r : BitVec 32) (j n : Nat) :
    dataBlocks (s.withRand32 r) j n = dataBlocks s j n := by
  have hblock : ∀ j, dataBlock (s.withRand32 r) j = dataBlock s j := fun _ => rfl
  induction n generalizing j with
  | zero => rfl
  | succ n ih => simp only [dataBlocks, hblock, ih]

theorem encryptedState_withRand32_outLen (mode : Mode) (s : State) (r : BitVec 32) (bs : List Block) :
    (encryptedState mode s bs).outLen = (encryptedState mode (s.withRand32 r) bs).outLen := by
  rw [encryptedState_outLen, encryptedState_outLen, withRand32_inLen]

theorem headerBlock_injective (n : Nat) : Function.Injective fun r => headerBlock r n := by
  intro r r' h
  have hsplit : split64 (join64 r (BitVec.ofNat 32 n)) = split64 (join64 r' (BitVec.ofNat 32 n)) := congrArg split64 h
  rw [split64_join64, split64_join64] at hsplit
  exact congrArg Prod.fst hsplit

/-- Two FRM.E commands that differ in rand32 only both raise a fault, or both complete on the same data blocks. -/
theorem frameEncrypt_withRand32_next {mode : Mode} {s t u : State} {r : BitVec 32}
    (ht : frameEncrypt mode s = .next t) (hu : frameEncrypt mode (s.withRand32 r) = .next u) :
    (∃ x y, t = enterFault s x ∧ u = enterFault (s.withRand32 r) y) ∨
    (∃ bs, bs.length = dataBlockCount s.ops.inLen.toNat ∧ t = encryptedState mode s bs ∧
      u = encryptedState mode (s.withRand32 r) bs) := by
  obtain ⟨hrunning, ⟨x, rfl⟩ | ⟨hkey, hsize, bs, hbs, rfl⟩⟩ := frameEncrypt_next ht
  · obtain ⟨-, ⟨y, rfl⟩ | ⟨hkey, hsize, bs, hbs, rfl⟩⟩ := frameEncrypt_next hu
    · exact .inl ⟨x, y, rfl, rfl⟩
    · have hbs' := (dataBlocks_withRand32 s r 1 _).symm.trans hbs
      have hsame := ht.symm.trans (frameEncrypt_of_blocks hrunning hkey hsize hbs')
      exact .inr ⟨bs, dataBlocks_length hbs', Host.Outcome.next.inj hsame, rfl⟩
  · have hbs' := (dataBlocks_withRand32 s r 1 _).trans hbs
    have hsame := hu.symm.trans (frameEncrypt_of_blocks (s := s.withRand32 r) hrunning hkey hsize hbs')
    exact .inr ⟨bs, dataBlocks_length hbs, rfl, Host.Outcome.next.inj hsame⟩

theorem byteAt_encryptedState_ecb (s : State) (bs : List Block) {a : Nat} (ha : 8 ≤ a) :
    byteAt (encryptedState .ecb s bs).out a =
      (streamBytes (bs.map fun b => transform b s.rk .encrypt))[a - 8]? := by
  rw [encryptedState_out, byteAt_writeBytes_nil, runEngine_ecb, clearBlocks, List.map_cons, streamBytes,
    List.getElem?_append_right (by rwa [beBytes_length]), beBytes_length]

/-- Settles O42: the data blocks hold no bit of rand32 and each is transformed alone; the headers differ and the
transform is injective. -/
theorem ecbFrameRandomHalfStaysInTheHeader : Obligations.EcbFrameRandomHalfStaysInTheHeader := by
  intro s t u r ht hu
  obtain ⟨x, y, rfl, rfl⟩ | ⟨bs, -, rfl, rfl⟩ := frameEncrypt_withRand32_next (mode := .ecb) ht hu
  · exact ⟨rfl, fun _ _ => rfl, fun hrunning => absurd hrunning (faultCode_ne_zero x)⟩
  · refine ⟨encryptedState_withRand32_outLen .ecb s r bs, fun a ha => ?_, fun _ hr hsame => hr ?_⟩
    · rw [byteAt_encryptedState_ecb _ _ ha, byteAt_encryptedState_ecb _ _ ha, withRand32_rk]
    · rw [memRead_encryptedState_ecb_header, memRead_encryptedState_ecb_header, withRand32_rk, withRand32_inLen,
        withRand32_rand32] at hsame
      have hheader := transform_encrypt_injective s.rk (Option.some.inj hsame)
      exact (headerBlock_injective _ hheader).symm

/-- Another rand32 gives another header, and so another chaining value after every block. -/
theorem messageChain_cbc_withRand32_ne {s : State} {r : BitVec 32} (hr : r ≠ s.ops.rand32) (bs : List Block) (j : Nat) :
    messageChain .cbc s bs j ≠ messageChain .cbc (s.withRand32 r) bs j := by
  intro h
  rw [messageChain, messageChain, clearBlocks, clearBlocks, chainAfter_cons_succ, chainAfter_cons_succ, withRand32_rk,
    withRand32_params, withRand32_inLen, withRand32_rand32] at h
  have hheader := transform_encrypt_injective s.rk (chainAfter_cbc_encrypt_injective s.rk bs j h)
  exact hr (headerBlock_injective _ ((BitVec.xor_left_inj _).mp hheader)).symm

/-- Settles O43: each block of OUT is a chaining value, and so is the PREV that is committed. -/
theorem cbcFrameRandomHalfReachesEveryBlock : Obligations.CbcFrameRandomHalfReachesEveryBlock := by
  intro s t u r ht hu hrunning hr
  obtain ⟨x, y, rfl, rfl⟩ | ⟨bs, hlen, rfl, rfl⟩ := frameEncrypt_withRand32_next (mode := .cbc) ht hu
  · exact absurd hrunning (faultCode_ne_zero x)
  · refine ⟨encryptedState_withRand32_outLen .cbc s r bs, ?_, fun j hj => ?_⟩
    · rw [encryptedState_cbc_prev, encryptedState_cbc_prev]
      exact messageChain_cbc_withRand32_ne hr bs bs.length
    · rw [encryptedState_outLen] at hj
      rw [memRead_encryptedState_cbc (by omega), memRead_encryptedState_cbc (by omega)]
      exact fun h => messageChain_cbc_withRand32_ne hr bs j (Option.some.inj h)

end Sys2Proof.Machine
end

section
/-! SUPPORT. The FRM.D commands (spec 45_framing_codec.md R104 to R109): OUT byte by byte. -/

namespace Sys2Proof.Machine

/-- The data blocks c 1 … c n of a ciphertext whose header block is c 0. -/
def dataCipher (c : Nat → Block) (n : Nat) : List Block := (List.range n).map fun j => c (j + 1)

theorem dataCipher_length (c : Nat → Block) (n : Nat) : (dataCipher c n).length = n := by
  rw [dataCipher, List.length_map, List.length_range]

theorem dataCipher_getElem? (c : Nat → Block) {n j : Nat} (hj : j < n) : (dataCipher c n)[j]? = some (c (j + 1)) := by
  rw [dataCipher, List.getElem?_map, List.getElem?_range hj, Option.map_some]

/-- In CBC the chaining value of a data block is the ciphertext block before it, the header for the first. -/
theorem chainAfter_dataCipher (rk : Schedule) (c : Nat → Block) {n j : Nat} (hj : j ≤ n) :
    chainAfter .cbc .decrypt rk (c 0) (dataCipher c n) j = c j := by
  cases j with
  | zero => exact chainAfter_zero ..
  | succ j => exact chainAfter_cbc_decrypt_succ (dataCipher_getElem? c hj)

/-- The state after an FRM.D command that completes on the ciphertext blocks c 0 … c n. -/
def decryptedFrame (mode : Mode) (s : State) (c : Nat → Block) (n : Nat) : State :=
  decryptedState mode s (recoveredHeader mode s (c 0)) (dataCipher c n)

theorem decryptedFrame_cbc_arch (s : State) (c : Nat → Block) (n : Nat) :
    (decryptedFrame .cbc s c n).arch = { s.arch with prev := c n, prevv := true } := by
  have hlast : (runEngine .cbc .decrypt s.rk (c 0) (dataCipher c n)).2 = c n := by
    rw [← chainAfter_length, dataCipher_length, chainAfter_dataCipher _ _ (Nat.le_refl n)]
  rw [← hlast]
  rfl

section
variable {mode : Mode} {s : State} {n : Nat} {c : Nat → Block} (hlen : s.ops.inLen.toNat = 8 * (n + 1))
  (hfits : headerLength (recoveredHeader mode s (c 0)).1 ≤ 8 * n)
  (hfits' : 8 * n - headerLength (recoveredHeader mode s (c 0)).1 < 8)
include hlen hfits hfits'

theorem frameDecrypt_of_cipher (hrunning : s.status = 0) (hkey : s.rkv = true)
    (hsize : s.ops.inLen.toNat ≤ s.params.maxLen.toNat)
    (hc : ∀ j, j ≤ n → memRead s.ops.inBuf (8 * j) 8 = some (c j)) :
    frameDecrypt mode s = .next (decryptedFrame mode s c n) := by
  refine frameDecrypt_of_blocks hrunning hkey hsize hlen (hc 0 (Nat.zero_le n)) ?_ hfits hfits'
  refine (readBlocks_eq_some s 8 n _).mpr ⟨dataCipher_length c n, fun j hj => ?_⟩
  rw [dataCipher_getElem? c hj, ← hc (j + 1) hj, Nat.mul_add, Nat.mul_one, Nat.add_comm]

theorem decryptedFrame_dense :
    Memory.dense (decryptedFrame mode s c n).out (decryptedFrame mode s c n).outLen :=
  decryptedState_dense hlen (dataCipher_length c n) hfits hfits'

/-- Byte a of OUT is byte a mod 8 of the engine's step on ciphertext block a / 8 + 1. -/
theorem byteAt_decryptedFrame {a : Nat} (ha : a < headerLength (recoveredHeader mode s (c 0)).1) :
    byteAt (decryptedFrame mode s c n).out a =
      some ((engineStep mode .decrypt s.rk
        (chainAfter mode .decrypt s.rk (recoveredHeader mode s (c 0)).2 (dataCipher c n) (a / 8))
        (c (a / 8 + 1))).1.extractLsb' (56 - 8 * (a % 8)) 8) := by
  have hblock : a / 8 < n := by omega
  rw [decryptedFrame, decryptedState_out hlen (dataCipher_length c n) hfits hfits', byteAt_writeBytes_nil,
    List.getElem?_take_of_lt ha, streamBytes_getElem?, runEngine_getElem? (dataCipher_getElem? c hblock),
    Option.map_some]

end

/-- Settles O38: in ECB the engine's step on a ciphertext block is its transform, and the chain is not committed. -/
theorem frameDecryptEcb : Obligations.FrameDecryptEcb := by
  refine ⟨rfl, fun s => ?_⟩
  obtain ⟨hfaulted, hunloaded, hover⟩ := exec_isFrame_early (i := .frmDEcb) rfl s
  refine ⟨hfaulted, hunloaded, hover, frameDecrypt_raises_alignment (mode := .ecb),
    fun n c hdr hrunning hkey hlen hsize hc hhdr => ?_⟩
  obtain rfl : hdr = (recoveredHeader .ecb s (c 0)).1 := hhdr
  refine ⟨frameDecrypt_raises_format hrunning hkey hsize hlen (hc 0 (Nat.zero_le n)), fun hfits hfits' => ?_⟩
  exact ⟨_, frameDecrypt_of_cipher hlen hfits hfits' hrunning hkey hsize hc, rfl, rfl, rfl,
    decryptedFrame_dense hlen hfits hfits', fun a ha => byteAt_decryptedFrame hlen hfits hfits' ha⟩

/-- Settles O39: in CBC the chaining value of a ciphertext block is the one before it, and the last one is
committed. -/
theorem frameDecryptCbc : Obligations.FrameDecryptCbc := by
  refine ⟨rfl, fun s => ?_⟩
  obtain ⟨hfaulted, hunloaded, hover⟩ := exec_isFrame_early (i := .frmDCbc) rfl s
  refine ⟨hfaulted, hunloaded, hover, frameDecrypt_raises_alignment (mode := .cbc),
    fun n c hdr hrunning hkey hlen hsize hc hhdr => ?_⟩
  obtain rfl : hdr = (recoveredHeader .cbc s (c 0)).1 := hhdr
  refine ⟨frameDecrypt_raises_format hrunning hkey hsize hlen (hc 0 (Nat.zero_le n)), fun hfits hfits' => ?_⟩
  refine ⟨_, frameDecrypt_of_cipher hlen hfits hfits' hrunning hkey hsize hc, decryptedFrame_cbc_arch s c n, rfl,
    rfl, decryptedFrame_dense hlen hfits hfits', fun a ha => ?_⟩
  have hchain : chainAfter .cbc .decrypt s.rk (recoveredHeader .cbc s (c 0)).2 (dataCipher c n) (a / 8) =
      c (a / 8) := chainAfter_dataCipher s.rk c (by omega)
  rw [byteAt_decryptedFrame hlen hfits hfits' ha, hchain]
  rfl

end Sys2Proof.Machine
end

section
/-! SUPPORT. A message encrypted and decrypted again (spec 45_framing_codec.md R110). -/

namespace Sys2Proof.Machine

/-! ## The plaintext in its data blocks -/

theorem headerLength_headerBlock (r : BitVec 32) {n : Nat} (hn : n < 2 ^ 32) : headerLength (headerBlock r n) = n := by
  have hlow : (split64 (join64 r (BitVec.ofNat 32 n))).2 = BitVec.ofNat 32 n := by rw [split64_join64]
  calc headerLength (headerBlock r n) = (BitVec.ofNat 32 n).toNat := congrArg BitVec.toNat hlow
    _ = n := by rw [BitVec.toNat_ofNat, Nat.mod_eq_of_lt hn]

/-- The stream of the data blocks without the pad draws is IN. -/
theorem writeBytes_dataBlocks {s : State} {bs : List Block} (hdense : Memory.dense s.ops.inBuf s.ops.inLen.toNat)
    (hbs : dataBlocks s 1 (dataBlockCount s.ops.inLen.toNat) = some bs) :
    writeBytes [] 0 ((streamBytes bs).take s.ops.inLen.toNat) = s.ops.inBuf := by
  refine wf_ext (dense_wf (writeBytes_nil_dense _)) (dense_wf hdense) fun a => ?_
  rw [byteAt_writeBytes_nil]
  by_cases ha : a < s.ops.inLen.toNat
  · obtain ⟨b, hb⟩ := dense_dataBlock (j := 1 + a / 8) hdense (by omega)
    have hplace : 8 * (1 + a / 8 - 1) + a % 8 = a := by omega
    rw [List.getElem?_take_of_lt ha, streamBytes_getElem?,
      ← dataBlocks_getElem? hbs (a / 8) (by rw [dataBlockCount]; omega), hb, Option.map_some,
      dataBlock_byte hb (by omega) (Nat.mod_lt a (by omega)), hplace, if_pos ha]
  · have hnone : byteAt s.ops.inBuf a = none :=
      Option.not_isSome_iff_eq_none.mp (mt (dense_byteAt_isSome hdense a).mp ha)
    rw [hnone, List.getElem?_eq_none ((List.length_take_le _ _).trans (Nat.le_of_not_lt ha))]

/-! ## The ciphertext, presented again -/

/-- The state with OUT presented as IN, under other operands o. -/
def State.feedBack (t : State) (o : Operands) : State :=
  { t with ops := { o with inBuf := t.out, inLen := BitVec.ofNat 64 t.outLen } }

@[simp] theorem feedBack_inBuf (t : State) (o : Operands) : (t.feedBack o).ops.inBuf = t.out := rfl
@[simp] theorem feedBack_inLen (t : State) (o : Operands) : (t.feedBack o).ops.inLen = BitVec.ofNat 64 t.outLen := rfl

/-- The ciphertext of a message's header, and the chaining value after it. -/
def headerCipher (mode : Mode) (s : State) : Block × Block :=
  engineStep mode .encrypt s.rk s.params.iv (headerBlock s.ops.rand32 s.ops.inLen.toNat)

/-- The ciphertext of a message's data blocks bs. -/
def messageCipher (mode : Mode) (s : State) (bs : List Block) : List Block :=
  (runEngine mode .encrypt s.rk (headerCipher mode s).2 bs).1

section
variable {mode : Mode} {s : State} {bs : List Block}

theorem messageCipher_length : (messageCipher mode s bs).length = bs.length := runEngine_length ..

/-- OUT after an FRM.E command is the header's ciphertext, then that of the data blocks. -/
theorem memRead_encryptedState_cipher {j : Nat} (hj : j ≤ bs.length) :
    memRead (encryptedState mode s bs).out (8 * j) 8 =
      ((headerCipher mode s).1 :: messageCipher mode s bs)[j]? := by
  rw [encryptedState_out]
  refine memRead_stream _ j ?_
  rw [runEngine_length]
  exact Nat.lt_succ_of_le hj

variable (o : Operands)

theorem readBlocks_feedBack :
    readBlocks ((encryptedState mode s bs).feedBack o) 8 bs.length = some (messageCipher mode s bs) := by
  refine (readBlocks_eq_some _ _ _ _).mpr ⟨messageCipher_length, fun j hj => ?_⟩
  rw [feedBack_inBuf, show 8 + 8 * j = 8 * (j + 1) by omega, memRead_encryptedState_cipher hj,
    List.getElem?_cons_succ]

theorem feedBack_registers :
    ((encryptedState mode s bs).feedBack o).status = s.status ∧
    ((encryptedState mode s bs).feedBack o).rkv = s.rkv ∧
    ((encryptedState mode s bs).feedBack o).rk = s.rk ∧
    ((encryptedState mode s bs).feedBack o).params = s.params := by
  cases mode <;> exact ⟨rfl, rfl, rfl, rfl⟩

/-- The header recovered from OUT is the header that was encrypted, and the chaining value is the same. -/
theorem recoveredHeader_feedBack :
    recoveredHeader mode ((encryptedState mode s bs).feedBack o) (headerCipher mode s).1 =
      (headerBlock s.ops.rand32 s.ops.inLen.toNat, (headerCipher mode s).2) := by
  obtain ⟨-, -, hrk, hparams⟩ := feedBack_registers (mode := mode) (s := s) (bs := bs) o
  rw [recoveredHeader, hrk, hparams]
  exact engineStep_decrypt_encrypt ..

end

/-- A message within MAXLEN is decrypted from OUT: the header gives the plaintext's length, and the engine gives the
data blocks back. -/
theorem frameDecrypt_feedBack {mode : Mode} {s : State} {bs : List Block} (o : Operands) (hrunning : s.status = 0)
    (hkey : s.rkv = true) (hsize : 8 * (dataBlockCount s.ops.inLen.toNat + 1) ≤ s.params.maxLen.toNat)
    (hdense : Memory.dense s.ops.inBuf s.ops.inLen.toNat)
    (hbs : dataBlocks s 1 (dataBlockCount s.ops.inLen.toNat) = some bs) :
    ∃ u, frameDecrypt mode ((encryptedState mode s bs).feedBack o) = .next u ∧ u.status = 0 ∧
      u.out = s.ops.inBuf ∧ u.outLen = s.ops.inLen.toNat := by
  have hmax := s.params.maxLen.isLt
  have hshort : s.ops.inLen.toNat < 2 ^ 32 := by
    rw [dataBlockCount] at hsize; omega
  have hcount : bs.length = dataBlockCount s.ops.inLen.toNat := dataBlocks_length hbs
  obtain ⟨hstatus, hrkv, hrk, hparams⟩ := feedBack_registers (mode := mode) (s := s) (bs := bs) o
  have hlen : ((encryptedState mode s bs).feedBack o).ops.inLen.toNat = 8 * (bs.length + 1) := by
    rw [feedBack_inLen, encryptedState_outLen, BitVec.toNat_ofNat, hcount, Nat.mod_eq_of_lt (by omega)]
  have hheader := recoveredHeader_feedBack (mode := mode) (s := s) (bs := bs) o
  have hlength : headerLength (recoveredHeader mode ((encryptedState mode s bs).feedBack o)
      (headerCipher mode s).1).1 = s.ops.inLen.toNat := by
    rw [hheader, headerLength_headerBlock _ hshort]
  have hfits : headerLength (recoveredHeader mode ((encryptedState mode s bs).feedBack o)
      (headerCipher mode s).1).1 ≤ 8 * bs.length := by
    rw [hlength, hcount, dataBlockCount]; omega
  have hfits' : 8 * bs.length - headerLength (recoveredHeader mode ((encryptedState mode s bs).feedBack o)
      (headerCipher mode s).1).1 < 8 := by
    rw [hlength, hcount, dataBlockCount]; omega
  refine ⟨_, frameDecrypt_of_blocks (hstatus.trans hrunning) (hrkv.trans hkey) ?_ hlen
    (memRead_encryptedState_cipher (j := 0) (Nat.zero_le _)) (readBlocks_feedBack o) hfits hfits', ?_, ?_, hlength⟩
  · rw [hlen, hparams, hcount]; exact hsize
  · rw [decryptedState_status, hstatus, hrunning]
  · rw [← recoveredHeader, decryptedState_out hlen messageCipher_length hfits hfits', hlength, hheader, hrk,
      messageCipher, runEngine_decrypt_encrypt, writeBytes_dataBlocks hdense hbs]

/-- Settles O40: the FRM.D command finds OUT on its port, and the default MAXLEN is 2^31 − 1. -/
theorem frameRoundTrip : Obligations.FrameRoundTrip := by
  refine ⟨fun s mode o hrunning hkey hwf hsize => ?_, fun N => ?_⟩
  · have hdense : Memory.dense s.ops.inBuf s.ops.inLen.toNat := hwf.2 (by omega)
    obtain ⟨bs, hbs, hencrypt⟩ := frameEncrypt_of_wf (mode := mode) hrunning hkey (by omega) hwf
    obtain ⟨u, hdecrypt, hu⟩ := frameDecrypt_feedBack (mode := mode) o hrunning hkey hsize hdense hbs
    exact ⟨_, u, (exec_frameCommand_encrypt mode s).trans hencrypt, rfl,
      (exec_frameCommand_decrypt mode _).trans hdecrypt, hu⟩
  · have hmax : Config.defaults.maxLen.toNat = 2147483647 := rfl
    rw [hmax]
    omega

end Sys2Proof.Machine
end

section
/-! SUPPORT. The FAULTED state, the fault entry and the step without a command (spec 60_exceptions.md R116, R117,
R126). -/

namespace Sys2Proof.Machine

/-! ## Test 1 of R115 -/

/-- Every command tests STATUS before anything else (R115). -/
theorem exec_eq_whenRunning (i : Instr) (s : State) : ∃ k, exec i s = whenRunning s k := by
  cases i <;> exact ⟨_, rfl⟩

theorem exec_of_faulted (i : Instr) {s : State} (hfaulted : s.status ≠ 0) :
    exec i s = .fault (.faulted s.status) := by
  obtain ⟨k, hexec⟩ := exec_eq_whenRunning i s
  rw [hexec, whenRunning_of_faulted k hfaulted]

theorem step_of_noEvent {s : State} (h : s.host = []) : step s = idle s := by
  rw [step, h]

/-- What is not a reset meets test 1: idling in the state itself, a word in the state that presents it, which has the
same STATUS. -/
theorem step_of_faulted {s : State} (hfaulted : s.status ≠ 0) (hreset : ∀ rest, s.host ≠ .reset :: rest) :
    step s = .fault (.faulted s.status) := by
  cases hhost : s.host with
  | nil => exact (step_of_noEvent hhost).trans (whenRunning_of_faulted _ hfaulted)
  | cons event rest =>
    cases event with
    | reset => exact absurd hhost (hreset rest)
    | command w ops =>
      have hpresent : (present s rest ops).status ≠ 0 := present_status s rest ops ▸ hfaulted
      cases hw : decode w with
      | ok i => exact (step_of_legalWord hhost hw).trans (exec_of_faulted i hpresent)
      | error e => exact (step_of_illegalWord hhost hw).trans (whenRunning_of_faulted _ hpresent)

/-- Settles O5: test 1 stops every command and every step but a reset, and a reset gives the reset state's STATUS. -/
theorem faultedIsTerminal : Obligations.FaultedIsTerminal := fun s hfaulted =>
  ⟨fun i => exec_of_faulted i hfaulted, step_of_faulted hfaulted,
    fun rest hhost => ⟨_, step_of_reset hhost, hostReset_status s.params rest⟩⟩

/-! ## The fault entry -/

/-- Settles O48: a command starts from STATUS = 0 and a completion keeps STATUS, so a command that ends with
STATUS ≠ 0 has entered a fault. -/
theorem faultEntryIsPrecise : Obligations.FaultEntryIsPrecise := by
  intro i s t h hstatus
  obtain ⟨hrunning, ⟨x, rfl⟩ | hcompletes⟩ := exec_next h
  · exact ⟨x, raised_enterFault s x⟩
  · obtain ⟨hkept, -⟩ := completes_ports hcompletes
    exact absurd (hkept.trans hrunning) hstatus

/-! ## No command -/

/-- Settles O8: without an event the step is idling, which passes test 1 and keeps the state. -/
theorem idlingHoldsTheState : Obligations.IdlingHoldsTheState := fun _ hhost hrunning =>
  (step_of_noEvent hhost).trans (whenRunning_of_running _ hrunning)

end Sys2Proof.Machine
end
